-- ==== Sys2Proof/Word.lean ====
section
/-! DEFINITION. The three word widths of the unit: bytes of M, 32-bit registers and command words, 64-bit VALUE and RESULT. -/

namespace Sys2Proof

/-- One location of the memory M (20_memory.md R60). -/
abbrev Byte := BitVec 8

/-- A register of the register block, or a command word (00_scope.md R6: both 32 bits). -/
abbrev Word := BitVec 32

/-- VALUE or RESULT as one 64-bit value (10_state.md R27, R28). -/
abbrev Dword := BitVec 64

end Sys2Proof
end

