-- ==== Sys2Proof/Syntax.lean ====
section
/-! DEFINITION. The commands: one constructor per row of spec/opcode_table.json (30_encoding.md R87). -/

namespace Sys2Proof

/-- A decoded command. Operands are the natural numbers 30_encoding.md R86 takes straight from the word's bits; their ranges
are checked in WellFormed.lean. -/
inductive Instr where
  /-- 42_nop.md R170. -/
  | nop
  /-- 40_field_access.md R104. -/
  | get (fmt fid : Nat)
  /-- 40_field_access.md R105. -/
  | set (fmt fid : Nat)
  /-- 41_format_ops.md R140. -/
  | init (fmt : Nat)
  /-- 41_format_ops.md R141. -/
  | isvalid (fmt : Nat)
  /-- 40_field_access.md R106. -/
  | getd (q o w : Nat)
  /-- 40_field_access.md R107. -/
  | setd (q o w : Nat)
deriving DecidableEq, Repr

end Sys2Proof
end

