-- ==== Sys2Proof/WellFormed.lean ====
section
/-! DEFINITION. Which commands have a word: each operand fits its field (30_encoding.md R81, R91). -/

namespace Sys2Proof

/-- The operand ranges of 30_encoding.md R91: "a value that does not fit its field is an assembly error". W goes up to 127:
an illegal inline descriptor is encodable (R86) and raises E_DESC when it runs. -/
def Instr.wf : Instr → Bool
  | .nop => true
  | .get fmt fid => decide (fmt < 16) && decide (fid < 256)
  | .set fmt fid => decide (fmt < 16) && decide (fid < 256)
  | .init fmt => decide (fmt < 16)
  | .isvalid fmt => decide (fmt < 16)
  | .getd q o w => decide (q < 16) && decide (o < 32) && decide (w < 128)
  | .setd q o w => decide (q < 16) && decide (o < 32) && decide (w < 128)

end Sys2Proof
end

