-- ==== Sys2Proof/Decode.lean ====
section
/-! DEFINITION. The command word: bit fields, the opcode table, the decoder (30_encoding.md R88), the encoder (R91). -/

namespace Sys2Proof

/-- `c[hi:lo]`, LSB-numbered (00_scope.md R7), as a natural number (30_encoding.md R86: zero-extended). -/
def bitField (c : Word) (hi lo : Nat) : Nat := c.toNat / 2 ^ lo % 2 ^ (hi + 1 - lo)

/-- OP, bits [31:28] (30_encoding.md R81). -/
def opField (c : Word) : Nat := bitField c 31 28

/-- Why a word selects no command (30_encoding.md R88): E_OPCODE or E_RSVD. -/
inductive DecodeError where
  | illegalOpcode
  | reservedBits
deriving DecidableEq, Repr

/-- `Decode(c)` of 30_encoding.md R88, total: the opcode is checked before the reserved bits. -/
def decodeWord (c : Word) : Except DecodeError Instr :=
  match opField c with
  | 0 => if bitField c 27 0 = 0 then .ok .nop else .error .reservedBits
  | 1 => if bitField c 15 0 = 0 then .ok (.get (bitField c 27 24) (bitField c 23 16)) else .error .reservedBits
  | 2 => if bitField c 15 0 = 0 then .ok (.set (bitField c 27 24) (bitField c 23 16)) else .error .reservedBits
  | 3 => if bitField c 23 0 = 0 then .ok (.init (bitField c 27 24)) else .error .reservedBits
  | 4 => if bitField c 23 0 = 0 then .ok (.isvalid (bitField c 27 24)) else .error .reservedBits
  | 5 =>
    if bitField c 27 16 = 0 then .ok (.getd (bitField c 15 12) (bitField c 11 7) (bitField c 6 0))
    else .error .reservedBits
  | 6 =>
    if bitField c 27 16 = 0 then .ok (.setd (bitField c 15 12) (bitField c 11 7) (bitField c 6 0))
    else .error .reservedBits
  | _ => .error .illegalOpcode

/-- The word of a command, by the formulas of 30_encoding.md R91 (meant for well-formed commands). -/
def encode : Instr → Word
  | .nop => 0
  | .get fmt fid => BitVec.ofNat 32 (0x1 * 2 ^ 28 + 2 ^ 24 * fmt + 2 ^ 16 * fid)
  | .set fmt fid => BitVec.ofNat 32 (0x2 * 2 ^ 28 + 2 ^ 24 * fmt + 2 ^ 16 * fid)
  | .init fmt => BitVec.ofNat 32 (0x3 * 2 ^ 28 + 2 ^ 24 * fmt)
  | .isvalid fmt => BitVec.ofNat 32 (0x4 * 2 ^ 28 + 2 ^ 24 * fmt)
  | .getd q o w => BitVec.ofNat 32 (0x5 * 2 ^ 28 + 2 ^ 12 * q + 2 ^ 7 * o + w)
  | .setd q o w => BitVec.ofNat 32 (0x6 * 2 ^ 28 + 2 ^ 12 * q + 2 ^ 7 * o + w)

/-- A row of the match and mask table of 30_encoding.md R87. -/
structure OpcodeRow where
  mnemonic : String
  matchBits : Word
  maskBits : Word
deriving DecidableEq, Repr

/-- "a word matches when `c & mask = match`" (30_encoding.md R87). -/
def OpcodeRow.hits (r : OpcodeRow) (c : Word) : Bool := c &&& r.maskBits == r.matchBits

/-- The match and mask table of 30_encoding.md R87, written out from the spec, independent of the decoder. -/
def opcodeTable : List OpcodeRow :=
  [⟨"NOP", 0x00000000, 0xFFFFFFFF⟩,
   ⟨"GET", 0x10000000, 0xF000FFFF⟩,
   ⟨"SET", 0x20000000, 0xF000FFFF⟩,
   ⟨"INIT", 0x30000000, 0xF0FFFFFF⟩,
   ⟨"ISVALID", 0x40000000, 0xF0FFFFFF⟩,
   ⟨"GETD", 0x50000000, 0xFFFF0000⟩,
   ⟨"SETD", 0x60000000, 0xFFFF0000⟩]

/-- The mnemonic of a command, as spec/opcode_table.json spells it. -/
def Instr.mnemonic : Instr → String
  | .nop => "NOP"
  | .get _ _ => "GET"
  | .set _ _ => "SET"
  | .init _ => "INIT"
  | .isvalid _ => "ISVALID"
  | .getd _ _ _ => "GETD"
  | .setd _ _ _ => "SETD"

/-- The instruction the decoder reads from a table word of `nbits` bits; every command is one 32-bit word written in one CMD
write (30_encoding.md R90), so the bits above `nbits` are 0 and no byte order enters. -/
def decodeTableWord (nbits w : Nat) : Option Instr :=
  match decodeWord (BitVec.ofNat 32 (w % 2 ^ nbits)) with
  | .ok i => some i
  | .error _ => none

end Sys2Proof
end

