-- ==== Sys2Proof/Config.lean ====
section
/-! DEFINITION. The shape of the configuration (10_state.md R35, R36, 00_scope.md R6) and the free values (20_memory.md R79,
70_reset_and_hazards.md R202). The default tables and the well-formedness rules are in Machine/Rom.lean. -/

namespace Sys2Proof

/-- A field descriptor (10_state.md R36): quadlet index, MSB-first bit offset, bit width. -/
structure Desc where
  q : Nat
  o : Nat
  w : Nat
deriving DecidableEq, Repr

/-- A stamp (10_state.md R35): INIT writes the constant `k` in field `fid`. -/
structure Stamp where
  fid : Nat
  k : Nat
deriving DecidableEq, Repr

/-- The length rule (10_state.md R35): the claimed total size is `scale * value + bias`. -/
structure LenRule where
  fid : Nat
  scale : Nat
  bias : Nat
deriving DecidableEq, Repr

/-- The three kinds of structural check (10_state.md R35: EQ, RANGE, EXCL). -/
inductive Check where
  | eqConst (fid k : Nat)
  | inRange (fid lo hi : Nat)
  | exclusive (fidA fidB : Nat)
deriving DecidableEq, Repr

/-- A format record (10_state.md R35). Row `i` of `fields` is the descriptor of field id `i`. -/
structure Format where
  n : Nat
  fields : List Desc
  stamps : List Stamp
  lenrule : Option LenRule
  checks : List Check
deriving DecidableEq, Repr

/-- The configuration ROM (10_state.md R35, R41): `none` is `absent`. Only codes 0 to 3 have a home, because "codes 4..15
are reserved and a conforming configuration leaves them absent" (R41). -/
structure FormatRom where
  avtp : Option Format
  udp : Option Format
  cvf : Option Format
  most : Option Format
deriving DecidableEq, Repr

/-- The CVF parameters of 00_scope.md R6: CVF_SUBTYPE, CVF_FORMAT_RFC, CVF_FSUB_MAX. -/
structure CvfConstants where
  subtype : Nat
  formatRfc : Nat
  fsubMax : Nat
deriving DecidableEq, Repr

/-- A range of bus addresses. -/
structure Region where
  base : Nat
  size : Nat
deriving DecidableEq, Repr

/-- Everything that is fixed when the unit is built and placed (00_scope.md R6; 10_state.md R20, R39): the ROM CFG and the
platform's parameters. It is a field of State, so every statement is about every value of it; no step changes it. -/
structure Config where
  /-- AW, the width in bits of an address of M. -/
  aw : Nat
  /-- REG_BASE, the bus address of the register block (OPEN in R6). -/
  regBase : Nat
  /-- NULL_BASE_CHECK. -/
  nullBaseCheck : Bool
  /-- OTHER_WRITERS. -/
  otherWriters : Bool
  /-- The addresses the platform gives to anything but plain memory (20_memory.md R70, R72). -/
  notPlain : List Region
  /-- CFG. -/
  rom : FormatRom
deriving DecidableEq, Repr

/-- FREE VALUE: the byte a footprint location holds after an abandoned or contended command (20_memory.md R79,
70_reset_and_hazards.md R202: "any value"). Uninterpreted; applied to the counter State.fresh. Log entry 6. -/
opaque Config.freeByte : Nat → Byte

/-- FREE VALUE: the RESULT a contended GET or GETD produces (20_memory.md R79). Uninterpreted. Log entry 6. -/
opaque Config.freeResult : Nat → Dword

/-- FREE VALUE: the STATUS.VALID a contended command produces (20_memory.md R79). Uninterpreted. Log entry 6. -/
opaque Config.freeValid : Nat → Bool

end Sys2Proof
end

