-- ==== Sys2Proof/Machine/Rom.lean ====
section
/-! DEFINITION. Descriptor arithmetic (10_state.md R36), well-formedness of the configuration (R37 to R39, R50) and the default
configuration (R43 to R48). -/

namespace Sys2Proof

/-- `nq(w)`: quadlets in the window (10_state.md R36). -/
def nq (w : Nat) : Nat := if w ≤ 32 then 1 else 2

/-- `WB(w)`: window bits, 32 or 64 (10_state.md R36). -/
def windowBits (w : Nat) : Nat := 32 * nq w

namespace Desc

/-- `sh(o, w)`: the right shift that brings the field to bit 0 (10_state.md R36). -/
def shift (d : Desc) : Nat := windowBits d.w - d.o - d.w

/-- The first buffer byte of the window: `4*d.q` (10_state.md R36). -/
def firstByte (d : Desc) : Nat := 4 * d.q

/-- The number of buffer bytes of the window: `4*nq(d.w)`, 4 or 8 (10_state.md R36). -/
def windowBytes (d : Desc) : Nat := 4 * nq d.w

/-- The first header bit of the field, MSB-first over the buffer: `32*d.q + d.o` (10_state.md R36). -/
def firstBit (d : Desc) : Nat := 32 * d.q + d.o

/-- `wf(d)` (10_state.md R37). -/
def wf (d : Desc) : Bool :=
  decide (1 ≤ d.w) && decide (d.w ≤ 64) && decide (d.o ≤ 31) && decide (d.o + d.w ≤ windowBits d.w)

/-- `bits(d1)` and `bits(d2)` share no header bit (10_state.md R36, R38 (c)): both are intervals. -/
def disjoint (d1 d2 : Desc) : Bool :=
  decide (d1.firstBit + d1.w ≤ d2.firstBit) || decide (d2.firstBit + d2.w ≤ d1.firstBit)

end Desc

/-- Every two rows of a table have disjoint bits (10_state.md R38 (c)). -/
def pairwiseDisjoint : List Desc → Bool
  | [] => true
  | d :: ds => ds.all d.disjoint && pairwiseDisjoint ds

namespace Format

/-- HLEN, the fixed header length in bytes (10_state.md R40). -/
def hlen (F : Format) : Nat := 4 * F.n

/-- `k` is a value field `fid` can hold; false when there is no such field (10_state.md R38 (d), (f)). -/
def fits (F : Format) (fid k : Nat) : Bool :=
  match F.fields[fid]? with
  | some d => decide (k < 2 ^ d.w)
  | none => false

/-- The checks that 10_state.md R38 (f) allows. -/
def checkOk (F : Format) : Check → Bool
  | .eqConst fid k => F.fits fid k
  | .inRange fid lo hi => decide (lo ≤ hi) && F.fits fid hi
  | .exclusive a b => decide (a < F.fields.length) && decide (b < F.fields.length) && decide (a ≠ b)

/-- The record is well-formed (10_state.md R35 ranges, R38 (a) to (f)). -/
def wf (F : Format) : Bool :=
  decide (1 ≤ F.n) && decide (F.n ≤ 256) && decide (F.fields.length ≤ 256) &&
  F.fields.all (fun d => d.wf && decide (d.q + nq d.w ≤ F.n)) &&
  pairwiseDisjoint F.fields &&
  F.stamps.all (fun st => F.fits st.fid st.k) &&
  (match F.lenrule with
   | none => true
   | some r => decide (r.fid < F.fields.length)) &&
  F.checks.all F.checkOk

end Format

/-- `CFG[c]` (10_state.md R35, R41): codes 4 to 15 are absent. -/
def FormatRom.record (rom : FormatRom) : Nat → Option Format
  | 0 => rom.avtp
  | 1 => rom.udp
  | 2 => rom.cvf
  | 3 => rom.most
  | _ => none

namespace Config

/-- An absent record is well-formed (10_state.md R39 speaks of present records). -/
def recordOk : Option Format → Bool
  | none => true
  | some F => F.wf

/-- The configuration has a semantics: AW in its range (00_scope.md R6), every present record well-formed (10_state.md R39),
and N = 4 for a supplied MOST record (R50). -/
def wf (C : Config) : Bool :=
  decide (1 ≤ C.aw) && decide (C.aw ≤ 32) &&
  recordOk C.rom.avtp && recordOk C.rom.udp && recordOk C.rom.cvf && recordOk C.rom.most &&
  (match C.rom.most with
   | none => true
   | some F => decide (F.n = 4))

end Config

/-- The UDP encapsulation record (10_state.md R44). -/
def udpRecord : Format :=
  { n := 1, fields := [⟨0, 0, 32⟩], stamps := [], lenrule := none, checks := [] }

/-- The CVF descriptor table (10_state.md R45), ids 0 to 19. -/
def cvfFields : List Desc :=
  [⟨0, 0, 8⟩,    -- 0 SUBTYPE
   ⟨0, 8, 1⟩,    -- 1 SV
   ⟨0, 9, 3⟩,    -- 2 VERSION
   ⟨0, 12, 1⟩,   -- 3 MR
   ⟨0, 13, 2⟩,   -- 4 RESERVED
   ⟨0, 15, 1⟩,   -- 5 TV
   ⟨0, 16, 8⟩,   -- 6 SEQUENCE_NUM
   ⟨0, 24, 7⟩,   -- 7 RESERVED_2
   ⟨0, 31, 1⟩,   -- 8 TU
   ⟨1, 0, 64⟩,   -- 9 STREAM_ID
   ⟨3, 0, 32⟩,   -- 10 AVTP_TIMESTAMP
   ⟨4, 0, 8⟩,    -- 11 FORMAT
   ⟨4, 8, 8⟩,    -- 12 FORMAT_SUBTYPE
   ⟨4, 16, 16⟩,  -- 13 RESERVED_3
   ⟨5, 0, 16⟩,   -- 14 STREAM_DATA_LENGTH
   ⟨5, 16, 2⟩,   -- 15 RESERVED_4
   ⟨5, 18, 1⟩,   -- 16 PTV
   ⟨5, 19, 1⟩,   -- 17 M
   ⟨5, 20, 4⟩,   -- 18 EVT
   ⟨5, 24, 8⟩]   -- 19 RESERVED_5

/-- The CVF record (10_state.md R45 to R48) for given values of the CVF parameters. -/
def cvfRecord (k : CvfConstants) : Format :=
  { n := 6
    fields := cvfFields
    stamps := [⟨0, k.subtype⟩, ⟨1, 1⟩, ⟨11, k.formatRfc⟩]
    lenrule := some ⟨14, 1, 24⟩
    checks :=
      [.eqConst 0 k.subtype, .eqConst 4 0, .eqConst 7 0, .eqConst 11 k.formatRfc, .inRange 12 0 k.fsubMax,
       .eqConst 13 0, .eqConst 15 0, .eqConst 19 0] }

/-- The defaults of CVF_SUBTYPE, CVF_FORMAT_RFC and CVF_FSUB_MAX (00_scope.md R6). -/
def CvfConstants.default : CvfConstants := { subtype := 0x03, formatRfc := 0x02, fsubMax := 2 }

/-- The default ROM (10_state.md R43): UDP and CVF present, every other code absent. -/
def FormatRom.default (k : CvfConstants) : FormatRom :=
  { avtp := none, udp := some udpRecord, cvf := some (cvfRecord k), most := none }

/-- The default parameters of 00_scope.md R6 for a given placement of the unit: REG_BASE and the addresses that are not plain
memory are the platform's. -/
def Config.placedAt (regBase : Nat) (notPlain : List Region) : Config :=
  { aw := 32, regBase := regBase, nullBaseCheck := true, otherWriters := false, notPlain := notPlain,
    rom := FormatRom.default CvfConstants.default }

/-- DESIGN CHOICE (log entries 2 and 3, unsafe): the placement of the one state State.reset; R6 leaves REG_BASE OPEN. -/
def Config.default : Config := Config.placedAt 0x40000000 []

end Sys2Proof
end

