-- ==== Sys2Proof/Machine/State.lean ====
section
/-! DEFINITION. The state of the machine (10_state.md R20, R21), the bus operations it consumes, the reasons it can stop, and the
state right after reset. -/

namespace Sys2Proof.Machine

/-- The memory M (20_memory.md R60) as a list of (address, byte) pairs in canonical form (Memory.wf in Machine/Ops.lean). -/
abbrev Memory := List Host.Cell

/-- STATUS (10_state.md R23) without its reserved bits, which read 0. -/
structure Status where
  err : Bool
  valid : Bool
  ecode : BitVec 4
deriving DecidableEq, Repr

/-- The command errors of 60_exceptions.md R180. They are no stops: the error procedure R181 records them in STATUS. -/
inductive ErrCode where
  | opcode
  | rsvd
  | format
  | field
  | desc
  | nullBase
  | view
  | bounds
deriving DecidableEq, Repr

/-- The size of a register access (10_state.md R30 defines only the 32-bit one). -/
inductive AccessSize where
  | byte
  | half
  | word
  | dword
deriving DecidableEq, Repr

/-- What the outside world can do to the unit and to M, one at a time (30_encoding.md R92; 60_exceptions.md R197: the bus
serialises). -/
inductive BusOp where
  /-- WR: a register write of the block (30_encoding.md R92, 10_state.md R21). -/
  | regWrite (offset : Nat) (size : AccessSize) (data : Word)
  /-- RD: a register read of the block. -/
  | regRead (offset : Nat) (size : AccessSize)
  /-- MEMW: a host byte write of M (not a unit operation). -/
  | memWrite (addr : Nat) (data : Byte)
  /-- MEMR: a host byte read of M (not a unit operation). -/
  | memRead (addr : Nat)
  /-- Reset while the unit is idle (70_reset_and_hazards.md R200). -/
  | reset
  /-- A CMD write of `c` that reset abandons (70_reset_and_hazards.md R202). -/
  | resetDuring (c : Word)
  /-- A CMD write of `c` while another agent writes a byte of the command's footprint (20_memory.md R79). -/
  | contendedCmd (c : Word)
deriving DecidableEq, Repr

/-- What a host read has returned. -/
inductive Reply where
  | word (w : Word)
  | byte (b : Byte)
deriving DecidableEq, Repr

/-- The triple (REGS, M, CFG) of 10_state.md R20, and three fields of the model's own: `inbox`, `replies`, `fresh`. -/
structure State where
  /-- STATUS (R23). -/
  status : Status
  /-- CMD (R24). -/
  cmd : Word
  /-- BUF_BASE (R25). -/
  bufBase : Word
  /-- BUF_LEN (R26). -/
  bufLen : Word
  /-- VALUE_LO (R27). -/
  valueLo : Word
  /-- VALUE_HI (R27). -/
  valueHi : Word
  /-- RESULT (R28), its halves computed on a read. -/
  result : Dword
  /-- M (20_memory.md R60). -/
  mem : Memory
  /-- CFG and the parameters (R35, 00_scope.md R6); no step changes it. -/
  cfg : Config
  /-- The model's own: bus operations still to come, oldest first. -/
  inbox : List BusOp
  /-- The model's own: what host reads returned, newest first. -/
  replies : List Reply
  /-- The model's own: the counter the free values are drawn by. -/
  fresh : Nat
deriving DecidableEq, Repr

/-- Why the machine stops with a fault. -/
inductive Fault where
  /-- Raised by a host access of M (memWrite, memRead) at an address of 2^AW or more, which 20_memory.md R60 says does not
  exist. No command raises it. SAFE: the model stops where the platform's bus decides. -/
  | noSuchAddress (addr : Nat)
deriving DecidableEq, Repr

/-- Why the model gives no meaning. -/
inductive Refusal where
  /-- Raised by an arm of exec whose instruction has no meaning yet; no arm does. SAFE. -/
  | notModelled (mnemonic : String)
  /-- Raised by every step and every command under an ill-formed configuration (10_state.md R39). SAFE. -/
  | illFormedConfig
  /-- Raised by a buffer command that raises no error and whose view is not plain memory or meets the register block
  (20_memory.md R70). SAFE. -/
  | viewNotPlain
  /-- Raised by a register access that is not an aligned 32-bit access at offsets 0x00 to 0x3C (10_state.md R30), also by a
  host byte access of M that falls on the register block. SAFE. -/
  | registerAccess
  /-- Raised by a host access of M at an address the platform gives to something else than plain memory (20_memory.md R70,
  R72). SAFE. -/
  | deviceAccess
  /-- Raised by a contended command under the premise OTHER_WRITERS = false, which excludes it (20_memory.md R71, R79). SAFE:
  the run stops, nothing is claimed. -/
  | contentionExcluded
deriving DecidableEq, Repr

/-- The unit right after reset (70_reset_and_hazards.md R200, 10_state.md R21), for a given configuration, with nothing listed
in M and no bus operation pending. -/
def State.resetWith (C : Config) : State :=
  { status := { err := false, valid := false, ecode := 0 }
    cmd := 0
    bufBase := 0
    bufLen := 0
    valueLo := 0
    valueHi := 0
    result := 0
    mem := []
    cfg := C
    inbox := []
    replies := []
    fresh := 0 }

/-- The machine right after reset with the default configuration (10_state.md R43). Its placement (REG_BASE, the platform's
other devices) is a DESIGN CHOICE (log entries 2 and 3), as are inbox, replies and fresh (log entries 4 to 6). -/
def State.reset : State := State.resetWith Config.default

end Sys2Proof.Machine
end

