-- ==== Sys2Proof/Machine/Flags.lean ====
section
/-! DEFINITION. STATUS, the unit's only flags (10_state.md R23, R33). -/

namespace Sys2Proof.Machine

/-- The ECODE of each error (60_exceptions.md R180). -/
def ErrCode.code : ErrCode → BitVec 4
  | .opcode => 1
  | .rsvd => 2
  | .format => 3
  | .field => 4
  | .desc => 5
  | .nullBase => 6
  | .view => 7
  | .bounds => 8

/-- ERR = 0, VALID = 0, ECODE = 0: what Execute writes before it decodes (30_encoding.md R80). -/
def Status.clear : Status := { err := false, valid := false, ecode := 0 }

/-- What `Accept()` leaves (41_format_ops.md R145): VALID = 1. -/
def Status.accepted : Status := { err := false, valid := true, ecode := 0 }

/-- What the error procedure writes (60_exceptions.md R181). -/
def Status.ofError (e : ErrCode) : Status := { err := true, valid := false, ecode := e.code }

/-- The word a read of STATUS answers (10_state.md R23): ERR at bit 0, VALID at bit 1, ECODE at bits 7 to 4, the rest 0. -/
def Status.toWord (st : Status) : Word :=
  BitVec.ofNat 32 (st.err.toNat + 2 * st.valid.toNat + 16 * st.ecode.toNat)

end Sys2Proof.Machine
end

