-- ==== Sys2Proof/Machine/Ops.lean ====
section
/-! DEFINITION. The named operations over M and the registers: byte and window access (20_memory.md R64, R67), Extract and Insert
(40_field_access.md R101, R102), the error procedure (60_exceptions.md R181), and the frame every command runs in
(30_encoding.md R80). The unit has no trap entry and no trap return (60_exceptions.md R191, R192): raiseError is all that an
error does. -/

namespace Sys2Proof.Machine

/-! ## The memory M -/

/-- What an address of M that nothing has written reads as. DESIGN CHOICE (log entry 1, unsafe): the spec gives M no reset
contents. -/
def unlisted (_addr : Nat) : Byte := 0

/-- `MemRead(a, 1)` (00_scope.md R10). -/
def Memory.read : Memory → Nat → Byte
  | [], a => unlisted a
  | (k, b) :: m, a => if k = a then b else Memory.read m a

/-- Put a cell before the first cell of a higher address. -/
def Memory.insertCell (a : Nat) (b : Byte) : Memory → Memory
  | [] => [(a, b)]
  | (k, c) :: m => if a < k then (a, b) :: (k, c) :: m else (k, c) :: Memory.insertCell a b m

/-- `MemWrite(a, 1, v)` (00_scope.md R10), keeping the canonical form: a byte equal to what an unlisted address reads as is
not listed. -/
def Memory.write (m : Memory) (a : Nat) (v : Byte) : Memory :=
  let rest := m.filter (fun c => decide (c.1 ≠ a))
  if v = unlisted a then rest else Memory.insertCell a v rest

/-- The canonical form: addresses strictly rising, and no entry equal to what an unlisted address reads as. -/
abbrev Memory.wf (m : Memory) : Prop :=
  m.Pairwise (fun c d => c.1 < d.1) ∧ ∀ c ∈ m, c.2 ≠ unlisted c.1

/-- `n` bytes from address `a`, the first the most significant (20_memory.md R64). -/
def Memory.readBE (m : Memory) (a : Nat) : Nat → Nat
  | 0 => 0
  | n + 1 => 256 * Memory.readBE m a n + (Memory.read m (a + n)).toNat

/-- Bytes written one after the other, in increasing order of address. -/
def Memory.writeBytes : Memory → Nat → List Byte → Memory
  | m, _, [] => m
  | m, a, b :: bs => Memory.writeBytes (Memory.write m a b) (a + 1) bs

/-- The `n` bytes of a window value, most significant first: byte `i` is `(W >> (8*(n-1-i))) & 0xFF` (20_memory.md R67). -/
def bytesBE (n W : Nat) : List Byte :=
  (List.range n).map (fun i => BitVec.ofNat 8 (W >>> (8 * (n - 1 - i)) &&& 0xFF))

/-! ## Windows and fields, over the memory and a base address -/

/-- `ReadWindow(d)` (20_memory.md R64). -/
def readWindow (m : Memory) (base : Nat) (d : Desc) : Nat :=
  Memory.readBE m (base + d.firstByte) d.windowBytes

/-- `WriteWindow(d, W)` (20_memory.md R67): every byte of the window is written. -/
def writeWindow (m : Memory) (base : Nat) (d : Desc) (W : Nat) : Memory :=
  Memory.writeBytes m (base + d.firstByte) (bytesBE d.windowBytes W)

/-- `mask(w) = 2^w - 1` (00_scope.md R9). -/
def mask (w : Nat) : Nat := 2 ^ w - 1

/-- `Extract(d)` (40_field_access.md R101). -/
def extract (m : Memory) (base : Nat) (d : Desc) : Nat :=
  (readWindow m base d >>> d.shift) &&& mask d.w

/-- `Insert(d, v)` (40_field_access.md R102). `~_N a` is `2^N - 1 - a` (00_scope.md R9). -/
def insertField (m : Memory) (base : Nat) (d : Desc) (v : Nat) : Memory :=
  let W := readWindow m base d
  let Mk := mask d.w <<< d.shift
  let W' := (W &&& (2 ^ windowBits d.w - 1 - Mk)) ||| ((v <<< d.shift) &&& Mk)
  writeWindow m base d W'

/-! ## Registers -/

namespace State

/-- The address of buffer byte 0 (10_state.md R25). -/
def base (s : State) : Nat := s.bufBase.toNat

/-- The length of the view (10_state.md R26). -/
def len (s : State) : Nat := s.bufLen.toNat

/-- VALUE = VALUE_HI * 2^32 + VALUE_LO (10_state.md R27). -/
def value (s : State) : Nat := 2 ^ 32 * s.valueHi.toNat + s.valueLo.toNat

/-- `CFG[fmt]`. -/
def record (s : State) (fmt : Nat) : Option Format := s.cfg.rom.record fmt

/-- `R[RESULT] <- zext_64(v)`. -/
def setResult (v : Nat) (s : State) : State := { s with result := BitVec.ofNat 64 v }

/-- A new content of M. -/
def setMem (m : Memory) (s : State) : State := { s with mem := m }

/-- A new STATUS. -/
def setStatus (st : Status) (s : State) : State := { s with status := st }

/-- Buffer byte `i` (00_scope.md R8). -/
def bufByte (s : State) (i : Nat) : Byte := Memory.read s.mem (s.base + i)

/-- `Extract(d)` over the view. -/
def fieldValue (s : State) (d : Desc) : Nat := extract s.mem s.base d

/-- `Insert(d, v)` over the view. -/
def insert (d : Desc) (v : Nat) (s : State) : State := s.setMem (insertField s.mem s.base d v)

end State

/-! ## Running one command -/

/-- How a command's rule ends early: `raise Error(e)` (00_scope.md R10), or a refusal of the model. -/
inductive Stop where
  | raised (e : ErrCode)
  | refused (r : Refusal)
deriving DecidableEq, Repr

/-- The first two lines of `Execute(c)` (30_encoding.md R80): CMD takes the word, STATUS is cleared. -/
def beginCommand (c : Word) (s : State) : State := { s with cmd := c, status := Status.clear }

/-- Only GET (OP 1) and GETD (OP 5) write RESULT (10_state.md R28). -/
def writesResult (c : Word) : Bool := opField c == 1 || opField c == 5

/-- `raise Error(code)` (60_exceptions.md R181), on the state whose CMD holds the command word. -/
def raiseError (e : ErrCode) (s : State) : State :=
  { s with status := Status.ofError e, result := if writesResult s.cmd then 0 else s.result }

/-- One command word's run: `Execute(c)` (30_encoding.md R80) around the command's rule `body`. A rule raises its errors before
its first effect (60_exceptions.md R190), so an error starts from the state the rule began in. An ill-formed configuration has
no semantics (10_state.md R39). -/
def runCommand (c : Word) (body : State → Except Stop State) (s : State) : Host.Outcome State Fault Refusal :=
  if s.cfg.wf then
    match body (beginCommand c s) with
    | .ok t => .next t
    | .error (.raised e) => .next (raiseError e (beginCommand c s))
    | .error (.refused r) => .refused r
  else .refused .illFormedConfig

end Sys2Proof.Machine
end

