-- ==== Sys2Proof/Machine/Operands.lean ====
section
/-! DEFINITION. The operand forms: a table field (40_field_access.md R100), an inline descriptor (R103), and the checks of the view
(20_memory.md R62, R63, R70). -/

namespace Sys2Proof.Machine

/-- `raise Error(e)` unless the condition holds. -/
def require (ok : Bool) (e : ErrCode) : Except Stop Unit := if ok then .ok () else .error (.raised e)

/-- The record of an implemented format, or E_FORMAT (10_state.md R40, 60_exceptions.md R184). -/
def findFormat (s : State) (fmt : Nat) : Except Stop Format :=
  match s.record fmt with
  | some F => .ok F
  | none => .error (.raised .format)

/-- Row `fid` of the table, or E_FIELD (60_exceptions.md R185). -/
def findField (F : Format) (fid : Nat) : Except Stop Desc :=
  match F.fields[fid]? with
  | some d => .ok d
  | none => .error (.raised .field)

/-- `Resolve(fmt, fid)` (40_field_access.md R100). -/
def resolve (s : State) (fmt fid : Nat) : Except Stop Desc := do
  let F ← findFormat s fmt
  findField F fid

/-- `CheckDesc(d)` (40_field_access.md R103); the 5 bits of O keep `o ≤ 31`, and R103 does not test it. -/
def checkDesc (d : Desc) : Except Stop Unit :=
  require (decide (1 ≤ d.w) && decide (d.w ≤ 64) && decide (d.o + d.w ≤ windowBits d.w)) .desc

/-- The base address passes the null test (20_memory.md R62, first line). -/
def baseOk (s : State) : Bool := !(s.cfg.nullBaseCheck && decide (s.base = 0))

/-- The view does not pass the top of M (20_memory.md R62, second line; the sum is exact). -/
def viewFits (s : State) : Bool := decide (s.base + s.len ≤ 2 ^ s.cfg.aw)

/-- `CheckView()` (20_memory.md R62). -/
def checkView (s : State) : Except Stop Unit := do
  require (baseOk s) .nullBase
  require (viewFits s) .view

/-- The whole window lies inside the view (20_memory.md R63). -/
def inBounds (s : State) (d : Desc) : Bool := decide (d.firstByte + d.windowBytes ≤ s.len)

/-- `CheckBounds(d)` (20_memory.md R63). -/
def checkBounds (s : State) (d : Desc) : Except Stop Unit := require (inBounds s d) .bounds

/-- Address `a` lies in the region. -/
def Region.holds (r : Region) (a : Nat) : Bool := decide (r.base ≤ a) && decide (a < r.base + r.size)

/-- The region shares an address with the `n` addresses from `a`. -/
def Region.meets (r : Region) (a n : Nat) : Bool :=
  decide (0 < n) && decide (0 < r.size) && decide (r.base < a + n) && decide (a < r.base + r.size)

/-- The register block: 64 bytes at REG_BASE (10_state.md R21). -/
def registerBlock (C : Config) : Region := { base := C.regBase, size := 64 }

/-- The view is plain memory and does not meet the register block (20_memory.md R70). -/
def viewPlain (s : State) : Bool :=
  !(registerBlock s.cfg :: s.cfg.notPlain).any (fun r => Region.meets r s.base s.len)

/-- A view that is not plain memory is refused (20_memory.md R70). DEDUCED (log entry 8): the error checks, which touch no
memory, come first. -/
def checkPlain (s : State) : Except Stop Unit :=
  if viewPlain s then .ok () else .error (.refused .viewNotPlain)

end Sys2Proof.Machine
end

