-- ==== Sys2Proof/Machine/Field.lean ====
section
/-! DEFINITION. The field access commands GET, SET, GETD, SETD (40_field_access.md R104 to R107). -/

namespace Sys2Proof.Machine

/-- The end of GET and GETD: the checks of the view, then `R[RESULT] <- zext_64(Extract(d))`. -/
def readField (d : Desc) (s : State) : Except Stop State := do
  checkView s
  checkBounds s d
  checkPlain s
  pure (s.setResult (s.fieldValue d))

/-- The end of SET and SETD: the checks of the view, then `Insert(d, R[VALUE])`. -/
def writeField (d : Desc) (s : State) : Except Stop State := do
  checkView s
  checkBounds s d
  checkPlain s
  pure (s.insert d s.value)

/-- GET (40_field_access.md R104). -/
def execGet (fmt fid : Nat) (s : State) : Host.Outcome State Fault Refusal :=
  runCommand (encode (.get fmt fid)) (fun t => do
    let d ← resolve t fmt fid
    readField d t) s

/-- SET (40_field_access.md R105). -/
def execSet (fmt fid : Nat) (s : State) : Host.Outcome State Fault Refusal :=
  runCommand (encode (.set fmt fid)) (fun t => do
    let d ← resolve t fmt fid
    writeField d t) s

/-- GETD (40_field_access.md R106). -/
def execGetd (q o w : Nat) (s : State) : Host.Outcome State Fault Refusal :=
  runCommand (encode (.getd q o w)) (fun t => do
    checkDesc ⟨q, o, w⟩
    readField ⟨q, o, w⟩ t) s

/-- SETD (40_field_access.md R107). -/
def execSetd (q o w : Nat) (s : State) : Host.Outcome State Fault Refusal :=
  runCommand (encode (.setd q o w)) (fun t => do
    checkDesc ⟨q, o, w⟩
    writeField ⟨q, o, w⟩ t) s

end Sys2Proof.Machine
end

