-- ==== Sys2Proof/Machine/FormatOps.lean ====
section
/-! DEFINITION. The whole-format commands INIT and ISVALID (41_format_ops.md R140 to R145). -/

namespace Sys2Proof.Machine

/-- The descriptor of a stamp's, lenrule's or check's field. A well-formed record names only its own rows (10_state.md R38), so
the second arm is never taken under a configuration that has a semantics. -/
def Format.row (F : Format) (fid : Nat) : Desc := (F.fields[fid]?).getD ⟨0, 0, 1⟩

/-- Zero the header, buffer bytes 0 to HLEN-1 only (41_format_ops.md R140). -/
def zeroHeader (m : Memory) (base : Nat) (F : Format) : Memory :=
  Memory.writeBytes m base (List.replicate F.hlen 0)

/-- The stamps, in list order (41_format_ops.md R140). -/
def applyStamps (F : Format) (base : Nat) : List Stamp → Memory → Memory
  | [], m => m
  | st :: rest, m => applyStamps F base rest (insertField m base (Format.row F st.fid) st.k)

/-- The header that INIT leaves. -/
def initHeader (m : Memory) (base : Nat) (F : Format) : Memory :=
  applyStamps F base F.stamps (zeroHeader m base F)

/-- INIT (41_format_ops.md R140). -/
def execInit (fmt : Nat) (s : State) : Host.Outcome State Fault Refusal :=
  runCommand (encode (.init fmt)) (fun t => do
    let F ← findFormat t fmt
    checkView t
    require (decide (F.hlen ≤ t.len)) .bounds
    checkPlain t
    pure (t.setMem (initHeader t.mem t.base F))) s

/-- Stage S1 (41_format_ops.md R142): the view covers the fixed header. -/
def stage1 (s : State) (F : Format) : Bool := decide (F.hlen ≤ s.len)

/-- Stage S2 (41_format_ops.md R143): the length claim, in exact arithmetic. -/
def stage2 (s : State) (F : Format) : Bool :=
  match F.lenrule with
  | none => true
  | some r => decide (r.scale * s.fieldValue (Format.row F r.fid) + r.bias ≤ s.len)

/-- `Holds(F, ch)` (41_format_ops.md R144). -/
def holds (s : State) (F : Format) : Check → Bool
  | .eqConst fid k => decide (s.fieldValue (Format.row F fid) = k)
  | .inRange fid lo hi =>
    decide (lo ≤ s.fieldValue (Format.row F fid)) && decide (s.fieldValue (Format.row F fid) ≤ hi)
  | .exclusive a b =>
    !(decide (s.fieldValue (Format.row F a) ≠ 0) && decide (s.fieldValue (Format.row F b) ≠ 0))

/-- The pipeline of 41_format_ops.md R141: S1, S2, then the checks of S3 in list order; `&&` stops at the first reject. -/
def verdict (s : State) (F : Format) : Bool := stage1 s F && stage2 s F && F.checks.all (holds s F)

/-- ISVALID (41_format_ops.md R141); accept and reject as R145. -/
def execIsvalid (fmt : Nat) (s : State) : Host.Outcome State Fault Refusal :=
  runCommand (encode (.isvalid fmt)) (fun t => do
    let F ← findFormat t fmt
    checkView t
    checkPlain t
    pure (if verdict t F then t.setStatus Status.accepted else t)) s

end Sys2Proof.Machine
end

