-- ==== Sys2Proof/Machine/Nop.lean ====
section
/-! DEFINITION. The command NOP (42_nop.md R170). -/

namespace Sys2Proof.Machine

/-- NOP (42_nop.md R170): Execute has already written CMD and cleared STATUS. -/
def execNop (s : State) : Host.Outcome State Fault Refusal := runCommand (encode .nop) (fun t => pure t) s

end Sys2Proof.Machine
end

