-- ==== Sys2Proof/Machine/Dispatch.lean ====
section
/-! DEFINITION. One arm per command (30_encoding.md R87). -/

namespace Sys2Proof.Machine

def exec (i : Instr) (s : State) : Host.Outcome State Fault Refusal :=
  match i with
  | .nop => Sys2Proof.Machine.execNop s
  | .get fmt fid => Sys2Proof.Machine.execGet fmt fid s
  | .set fmt fid => Sys2Proof.Machine.execSet fmt fid s
  | .init fmt => Sys2Proof.Machine.execInit fmt s
  | .isvalid fmt => Sys2Proof.Machine.execIsvalid fmt s
  | .getd q o w => Sys2Proof.Machine.execGetd q o w s
  | .setd q o w => Sys2Proof.Machine.execSetd q o w s

end Sys2Proof.Machine
end

