-- ==== Sys2Proof/Machine/Bus.lean ====
section
/-! DEFINITION. What each bus operation does: register reads and writes (10_state.md R21 to R30), the execution of a CMD write
(30_encoding.md R80), host accesses of M, reset (70_reset_and_hazards.md R200, R202) and contention (20_memory.md R79). -/

namespace Sys2Proof.Machine

/-! ## The register block -/

/-- ID (10_state.md R22). -/
def idWord : Word := 0x17220100

/-- A defined register access (10_state.md R30): 32 bits, naturally aligned, offsets 0x00 to 0x3C. -/
def accessDefined (offset : Nat) (size : AccessSize) : Bool :=
  decide (size = .word) && decide (offset % 4 = 0) && decide (offset ≤ 0x3C)

/-- What a read of a word slot answers (10_state.md R21): reserved slots read 0 (R29). -/
def readRegister (s : State) (offset : Nat) : Word :=
  match offset with
  | 0x00 => idWord
  | 0x04 => s.status.toWord
  | 0x08 => s.cmd
  | 0x10 => s.bufBase
  | 0x14 => s.bufLen
  | 0x18 => s.valueLo
  | 0x1C => s.valueHi
  | 0x20 => s.result.setWidth 32
  | 0x24 => (s.result >>> 32).setWidth 32
  | _ => 0

/-- Bits [AW-1:0] of a word; BUF_BASE bits [31:AW] are read-only 0 (10_state.md R25). -/
def maskAddress (C : Config) (w : Word) : Word := BitVec.ofNat 32 (w.toNat % 2 ^ C.aw)

/-- A write of a word slot other than CMD (10_state.md R21): read-only and reserved slots ignore it (R29). -/
def writeRegister (s : State) (offset : Nat) (data : Word) : State :=
  match offset with
  | 0x10 => { s with bufBase := maskAddress s.cfg data }
  | 0x14 => { s with bufLen := data }
  | 0x18 => { s with valueLo := data }
  | 0x1C => { s with valueHi := data }
  | _ => s

/-! ## A command word -/

/-- The error of a word that decodes to no command (30_encoding.md R88). -/
def DecodeError.errCode : DecodeError → ErrCode
  | .illegalOpcode => .opcode
  | .reservedBits => .rsvd

/-- `Execute(c)` (30_encoding.md R80). -/
def executeWord (c : Word) (s : State) : Host.Outcome State Fault Refusal :=
  match decodeWord c with
  | .ok i => exec i s
  | .error e => runCommand c (fun _ => .error (.raised (DecodeError.errCode e))) s

/-! ## Footprints -/

/-- The addresses of `bytes(d)` (10_state.md R36). -/
def windowAddrs (s : State) (d : Desc) : List Nat :=
  (List.range d.windowBytes).map (fun i => s.base + d.firstByte + i)

/-- The fields a check reads. -/
def checkedFields : Check → List Nat
  | .eqConst fid _ => [fid]
  | .inRange fid _ _ => [fid]
  | .exclusive a b => [a, b]

/-- The fields ISVALID may read: its lenrule's and its checks' (20_memory.md R69). -/
def validityFields (F : Format) : List Nat :=
  (match F.lenrule with
   | none => []
   | some r => [r.fid]) ++ F.checks.flatMap checkedFields

/-- The addresses of the footprint of a command that raises no error (20_memory.md R69). A view too short for S1 is rejected
without being read (41_format_ops.md R142), so its footprint is empty; otherwise ISVALID's is every field it may read. DEDUCED
(log entry 9). -/
def footprint (s : State) : Instr → List Nat
  | .nop => []
  | .get fmt fid | .set fmt fid =>
    match s.record fmt with
    | some F => windowAddrs s (Format.row F fid)
    | none => []
  | .init fmt =>
    match s.record fmt with
    | some F => (List.range F.hlen).map (fun i => s.base + i)
    | none => []
  | .isvalid fmt =>
    match s.record fmt with
    | some F => if stage1 s F then (validityFields F).flatMap (fun fid => windowAddrs s (Format.row F fid)) else []
    | none => []
  | .getd q o w | .setd q o w => windowAddrs s ⟨q, o, w⟩

/-- The footprint of a command word whose run ended in `t`: a word that raised an error has touched no byte
(60_exceptions.md R190). -/
def touchedBytes (c : Word) (s t : State) : List Nat :=
  if t.status.err then []
  else
    match decodeWord c with
    | .ok i => footprint s i
    | .error _ => []

/-- Every listed byte takes a free value. -/
def scramble : List Nat → State → State
  | [], s => s
  | a :: as, s =>
    scramble as { s with mem := Memory.write s.mem a (Config.freeByte s.fresh), fresh := s.fresh + 1 }

/-! ## Reset and contention -/

/-- Reset of the register block (70_reset_and_hazards.md R200): M, CFG and the model's own fields stay. -/
def resetRegisters (s : State) : State :=
  { State.resetWith s.cfg with mem := s.mem, inbox := s.inbox, replies := s.replies, fresh := s.fresh }

/-- Reset while the command `c` runs (70_reset_and_hazards.md R202): the registers take their reset values and every footprint
byte a free value. -/
def abandonCommand (c : Word) (s : State) : Host.Outcome State Fault Refusal :=
  match executeWord c s with
  | .next t => .next (resetRegisters (scramble (touchedBytes c s t) s))
  | .fault f => .fault f
  | .refused r => .refused r

/-- The values a contended command of nonempty footprint produces (20_memory.md R79): VALID is free, RESULT is free when the
command writes RESULT (10_state.md R28). DEDUCED (log entry 9). -/
def freeOutcome (c : Word) (t : State) : State :=
  { t with
    status := { t.status with valid := Config.freeValid t.fresh }
    result := if writesResult c then Config.freeResult t.fresh else t.result
    fresh := t.fresh + 1 }

/-- A CMD write of `c` while another agent writes a byte of its footprint (20_memory.md R79). A command that touches no byte
has no footprint to contend for, and runs as always. -/
def contendCommand (c : Word) (s : State) : Host.Outcome State Fault Refusal :=
  if s.cfg.otherWriters then
    match executeWord c s with
    | .next t =>
      match touchedBytes c s t with
      | [] => .next t
      | a :: as => .next (scramble (a :: as) (freeOutcome c t))
    | .fault f => .fault f
    | .refused r => .refused r
  else .refused .contentionExcluded

/-! ## One bus operation -/

/-- A host access of M at `addr`: `go` where M has plain memory there. -/
def hostAccess (s : State) (addr : Nat) (go : State) : Host.Outcome State Fault Refusal :=
  if 2 ^ s.cfg.aw ≤ addr then .fault (.noSuchAddress addr)
  else if Region.holds (registerBlock s.cfg) addr then .refused .registerAccess
  else if s.cfg.notPlain.any (fun r => Region.holds r addr) then .refused .deviceAccess
  else .next go

/-- A reply delivered to the host. -/
def State.answer (r : Reply) (s : State) : State := { s with replies := r :: s.replies }

/-- What one bus operation does. A write of CMD executes its word (10_state.md R24). -/
def runBusOp (op : BusOp) (s : State) : Host.Outcome State Fault Refusal :=
  match op with
  | .regWrite offset size data =>
    if accessDefined offset size then
      if offset = 0x08 then executeWord data s else .next (writeRegister s offset data)
    else .refused .registerAccess
  | .regRead offset size =>
    if accessDefined offset size then .next (s.answer (.word (readRegister s offset)))
    else .refused .registerAccess
  | .memWrite addr data => hostAccess s addr (s.setMem (Memory.write s.mem addr data))
  | .memRead addr => hostAccess s addr (s.answer (.byte (Memory.read s.mem addr)))
  | .reset => .next (resetRegisters s)
  | .resetDuring c => abandonCommand c s
  | .contendedCmd c => contendCommand c s

/-- One step: the oldest bus operation that is still to come; with none the unit is idle (70_reset_and_hazards.md R201) and
nothing changes. An ill-formed configuration has no semantics (10_state.md R39). -/
def busStep (s : State) : Host.Outcome State Fault Refusal :=
  if s.cfg.wf then
    match s.inbox with
    | [] => .next s
    | op :: rest => runBusOp op { s with inbox := rest }
  else .refused .illFormedConfig

/-- A CMD write of the word `w`, as the very next bus operation. -/
def State.pushCommand (w : Word) (s : State) : State :=
  { s with inbox := .regWrite 0x08 .word w :: s.inbox }

end Sys2Proof.Machine
end

