-- ==== Sys2Proof/Machine/Step.lean ====
section
/-! DEFINITION. The step of the machine and the placing of a command word where the next step takes it. -/

namespace Sys2Proof.Machine

/-- One step: one bus operation (Machine/Bus.lean). -/
def step (s : State) : Host.Outcome State Fault Refusal := busStep s

/-- The unit fetches nothing; each command arrives as a CMD write (10_state.md R32, R24). So the word goes to the front of the
pending bus operations, as a CMD write (log entry 4). -/
def State.withFetchWord (s : State) (nbits w : Nat) : State :=
  s.pushCommand (BitVec.ofNat 32 (w % 2 ^ nbits))

end Sys2Proof.Machine
end

