-- ==== Sys2Proof/Machine/Assembler.lean ====
section
/-! DEFINITION. The assembler's syntax (30_encoding.md R91), the host operations and pseudo-instructions (R92) and the facade
expansions (R93). A source line is a list of characters; a program is a list of bus operations. -/

namespace Sys2Proof.Machine

/-! ## Host operations and pseudo-instructions (30_encoding.md R92) -/

/-- `WR <reg>, <imm32>` for the register at `offset`. -/
def wr (offset : Nat) (imm : Nat) : BusOp := .regWrite offset .word (BitVec.ofNat 32 imm)

/-- `RD <reg>`. -/
def rd (offset : Nat) : BusOp := .regRead offset .word

/-- `<command>`: `WR CMD, <its encoding>`. -/
def command (i : Instr) : BusOp := .regWrite 0x08 .word (encode i)

/-- `LDV <imm64>`: VALUE_LO, then VALUE_HI. -/
def ldv (imm : Nat) : List BusOp := [wr 0x18 (imm % 2 ^ 32), wr 0x1C (imm / 2 ^ 32)]

/-- `VIEW <base>, <len>`: BUF_BASE, then BUF_LEN. -/
def viewOps (base len : Nat) : List BusOp := [wr 0x10 base, wr 0x14 len]

/-- `RDR`: RESULT_LO, then RESULT_HI. -/
def rdr : List BusOp := [rd 0x20, rd 0x24]

/-- `RDS`. -/
def rds : List BusOp := [rd 0x04]

/-- `MEMW <addr>, <byte>...`: host byte writes from `addr` up. -/
def memw : Nat → List Nat → List BusOp
  | _, [] => []
  | a, b :: bs => .memWrite a (BitVec.ofNat 8 b) :: memw (a + 1) bs

/-- `MEMR <addr>, <n>`: `n` host byte reads from `addr` up. -/
def memr (a n : Nat) : List BusOp := (List.range n).map (fun i => .memRead (a + i))

/-- A program appended to the pending bus operations. -/
def State.load (ops : List BusOp) (s : State) : State := { s with inbox := s.inbox ++ ops }

/-! ## Facade expansions (30_encoding.md R93), for a format code, a field id and the caller's buffer -/

def facadeInit (fmt base len : Nat) : List BusOp := viewOps base len ++ [command (.init fmt)]

def facadeGetField (fmt fid base len : Nat) : List BusOp := viewOps base len ++ [command (.get fmt fid)] ++ rdr

def facadeSetField (fmt fid base len v : Nat) : List BusOp := viewOps base len ++ ldv v ++ [command (.set fmt fid)]

def facadeEnable (fmt fid base len : Nat) : List BusOp := facadeSetField fmt fid base len 1

def facadeDisable (fmt fid base len : Nat) : List BusOp := facadeSetField fmt fid base len 0

/-- The host accepts when the STATUS it reads is 0x00000002. -/
def facadeIsValid (fmt base len : Nat) : List BusOp := viewOps base len ++ [command (.isvalid fmt)] ++ rds

/-! ## Names (10_state.md R21, R41, R44, R45) -/

/-- The position of a name in a list of names. -/
def positionOf (name : List Char) : List (List Char) → Option Nat
  | [] => none
  | n :: ns => if n = name then some 0 else (positionOf name ns).map (· + 1)

def formatNames : List (List Char) := ["AVTP".toList, "UDP".toList, "CVF".toList, "MOST".toList]

def udpFieldNames : List (List Char) := ["ENCAPSULATION_SEQ_NO".toList]

def cvfFieldNames : List (List Char) :=
  ["SUBTYPE".toList, "SV".toList, "VERSION".toList, "MR".toList, "RESERVED".toList, "TV".toList, "SEQUENCE_NUM".toList,
   "RESERVED_2".toList, "TU".toList, "STREAM_ID".toList, "AVTP_TIMESTAMP".toList, "FORMAT".toList,
   "FORMAT_SUBTYPE".toList, "RESERVED_3".toList, "STREAM_DATA_LENGTH".toList, "RESERVED_4".toList, "PTV".toList,
   "M".toList, "EVT".toList, "RESERVED_5".toList]

/-- The field names of R44 and R45; codes 0 and 3 have no table of the spec's (10_state.md R49, R50). DESIGN CHOICE (log entry
16): a record of R35 carries no names, so these stand whatever record the configuration holds at codes 1 and 2. -/
def fieldNames : Nat → List (List Char)
  | 1 => udpFieldNames
  | 2 => cvfFieldNames
  | _ => []

def registerOffset (name : List Char) : Option Nat :=
  if name = "ID".toList then some 0x00
  else if name = "STATUS".toList then some 0x04
  else if name = "CMD".toList then some 0x08
  else if name = "BUF_BASE".toList then some 0x10
  else if name = "BUF_LEN".toList then some 0x14
  else if name = "VALUE_LO".toList then some 0x18
  else if name = "VALUE_HI".toList then some 0x1C
  else if name = "RESULT_LO".toList then some 0x20
  else if name = "RESULT_HI".toList then some 0x24
  else none

/-! ## Reading a line (30_encoding.md R91) -/

/-- A word of the line, or the comma between operands. -/
inductive Token where
  | name (text : List Char)
  | comma
deriving DecidableEq, Repr

/-- The word read so far, if any, as a token. -/
def flushName (acc : List Char) (rest : List Token) : List Token :=
  if acc = [] then rest else .name acc.reverse :: rest

/-- Cut a line at blanks and commas; letters become capitals, since mnemonics and names are case-insensitive. -/
def tokens : List Char → List Char → List Token
  | acc, [] => flushName acc []
  | acc, c :: cs =>
    if c = ' ' ∨ c = '\t' then flushName acc (tokens [] cs)
    else if c = ',' then flushName acc (.comma :: tokens [] cs)
    else tokens (c.toUpper :: acc) cs

/-- The value of a digit of base 16. -/
def digitValue (c : Char) : Option Nat :=
  if '0'.toNat ≤ c.toNat ∧ c.toNat ≤ '9'.toNat then some (c.toNat - '0'.toNat)
  else if 'A'.toNat ≤ c.toNat ∧ c.toNat ≤ 'F'.toNat then some (c.toNat - 'A'.toNat + 10)
  else none

/-- Digits of base `b`, after the value `acc`. -/
def digits (b : Nat) : Nat → List Char → Option Nat
  | acc, [] => some acc
  | acc, c :: cs =>
    match digitValue c with
    | some v => if v < b then digits b (acc * b + v) cs else none
    | none => none

/-- A decimal or `0x` hexadecimal number (capitals, so `0X`). -/
def number : List Char → Option Nat
  | [] => none
  | ['0', 'X'] => none
  | '0' :: 'X' :: c :: cs => digits 16 0 (c :: cs)
  | cs => digits 10 0 cs

/-- A number of at most `n - 1`. -/
def numberBelow (n : Nat) (cs : List Char) : Option Nat :=
  match number cs with
  | some v => if v < n then some v else none
  | none => none

/-- `<fmt>`: 0 to 15 or a format name. -/
def formatOperand (cs : List Char) : Option Nat :=
  match positionOf cs formatNames with
  | some f => some f
  | none => numberBelow 16 cs

/-- `<field>` of a format: 0 to 255 or a field name of its table. -/
def fieldOperand (fmt : Nat) (cs : List Char) : Option Nat :=
  match positionOf cs (fieldNames fmt) with
  | some f => some f
  | none => numberBelow 256 cs

/-- `<fmt>, <field>`. -/
def tableOperands (f x : List Char) : Option (Nat × Nat) := do
  let fmt ← formatOperand f
  let fid ← fieldOperand fmt x
  pure (fmt, fid)

/-- `<q>, <o>, <w>`: 0 to 15, 0 to 31, 0 to 127. -/
def descOperands (q o w : List Char) : Option Desc := do
  let q ← numberBelow 16 q
  let o ← numberBelow 32 o
  let w ← numberBelow 128 w
  pure ⟨q, o, w⟩

/-- A row of the syntax table of 30_encoding.md R91 other than `.word`. -/
def parseCommand : List Token → Option Instr
  | [.name m] => if m = "NOP".toList then some .nop else none
  | [.name m, .name f] =>
    if m = "INIT".toList then (formatOperand f).map .init
    else if m = "ISVALID".toList then (formatOperand f).map .isvalid
    else none
  | [.name m, .name f, .comma, .name x] =>
    if m = "GET".toList then (tableOperands f x).map (fun p => .get p.1 p.2)
    else if m = "SET".toList then (tableOperands f x).map (fun p => .set p.1 p.2)
    else none
  | [.name m, .name q, .comma, .name o, .comma, .name w] =>
    if m = "GETD".toList then (descOperands q o w).map (fun d => .getd d.q d.o d.w)
    else if m = "SETD".toList then (descOperands q o w).map (fun d => .setd d.q d.o d.w)
    else none
  | _ => none

/-- The command word of a line of 30_encoding.md R91; `none` is an assembly error. -/
def assembleWord (line : List Char) : Option Word :=
  match tokens [] line with
  | [.name m, .name imm] =>
    if m = ".WORD".toList then (numberBelow (2 ^ 32) imm).map (BitVec.ofNat 32)
    else (parseCommand (tokens [] line)).map encode
  | ts => (parseCommand ts).map encode

/-- The bytes of a MEMW line. DESIGN CHOICE (log entry 12): commas may stand anywhere among them, also doubled or at an end,
and there may be no byte at all, which is no operation. -/
def byteOperands : List Token → Option (List Nat)
  | [] => some []
  | .comma :: ts => byteOperands ts
  | .name b :: ts => do
    let v ← numberBelow 256 b
    let vs ← byteOperands ts
    pure (v :: vs)

/-- A line of 30_encoding.md R92 that is no command. -/
def parseHostOp : List Token → Option (List BusOp)
  | [.name m] => if m = "RDR".toList then some rdr else if m = "RDS".toList then some rds else none
  | [.name m, .name a] =>
    if m = "RD".toList then (registerOffset a).map (fun off => [rd off])
    else if m = "LDV".toList then (numberBelow (2 ^ 64) a).map ldv
    else none
  | .name m :: .name a :: .comma :: rest =>
    if m = "MEMW".toList then do
      let addr ← number a
      let bytes ← byteOperands rest
      pure (memw addr bytes)
    else
      match rest with
      | [.name b] =>
        if m = "WR".toList then do
          let off ← registerOffset a
          let imm ← numberBelow (2 ^ 32) b
          pure [wr off imm]
        else if m = "VIEW".toList then do
          let base ← numberBelow (2 ^ 32) a
          let len ← numberBelow (2 ^ 32) b
          pure (viewOps base len)
        else if m = "MEMR".toList then do
          let addr ← number a
          let n ← number b
          pure (memr addr n)
        else none
      | _ => none
  | _ => none

/-- The bus operations of one line: a host operation, or a command written to CMD. -/
def assembleLine (line : List Char) : Option (List BusOp) :=
  match parseHostOp (tokens [] line) with
  | some ops => some ops
  | none => (assembleWord line).map (fun w => [.regWrite 0x08 .word w])

/-- The bus operations of a program; `none` if a line does not assemble. -/
def assemble : List (List Char) → Option (List BusOp)
  | [] => some []
  | line :: lines => do
    let ops ← assembleLine line
    let rest ← assemble lines
    pure (ops ++ rest)

/-! ## Printing a word (30_encoding.md R91) -/

/-- A number in decimal. -/
def decimal (n : Nat) : List Char := Nat.toDigits 10 n

/-- The syntax of a command, with its operands as decimal numbers. -/
def printCommand : Instr → List Char
  | .nop => "NOP".toList
  | .get fmt fid => "GET ".toList ++ decimal fmt ++ ", ".toList ++ decimal fid
  | .set fmt fid => "SET ".toList ++ decimal fmt ++ ", ".toList ++ decimal fid
  | .init fmt => "INIT ".toList ++ decimal fmt
  | .isvalid fmt => "ISVALID ".toList ++ decimal fmt
  | .getd q o w => "GETD ".toList ++ decimal q ++ ", ".toList ++ decimal o ++ ", ".toList ++ decimal w
  | .setd q o w => "SETD ".toList ++ decimal q ++ ", ".toList ++ decimal o ++ ", ".toList ++ decimal w

/-- "A disassembler prints a word matching a row of rule R87 with that row's syntax and prints every other word as `.word`"
(30_encoding.md R91). The spec does not say in which base: decimal, DESIGN CHOICE (log entry 10). -/
def disassemble (c : Word) : List Char :=
  match decodeWord c with
  | .ok i => printCommand i
  | .error _ => ".word ".toList ++ decimal c.toNat

end Sys2Proof.Machine
end

