-- ==== Sys2Proof/Safety.lean ====
section
/-! DEFINITION. What a safe state is, in the terms the statements use: the rules of spec/ that hold of every state between steps. -/

namespace Sys2Proof.Machine

/-- The invariants of 10_state.md R23 and 60_exceptions.md R180: ERR = 1 exactly when ECODE ≠ 0, VALID = 1 implies ERR = 0,
and ECODE 9 to 15 are never produced. -/
def Status.Legal (st : Status) : Prop :=
  (st.err = true ↔ st.ecode ≠ 0) ∧ (st.valid = true → st.err = false) ∧ st.ecode.toNat ≤ 8

/-- M is in canonical form and lists only addresses that exist (20_memory.md R60). -/
def Memory.Legal (aw : Nat) (m : Memory) : Prop := Memory.wf m ∧ ∀ c ∈ m, c.1 < 2 ^ aw

/-- The invariant of the machine: STATUS legal, M legal, BUF_BASE bits above AW zero (10_state.md R25). -/
structure State.Inv (s : State) : Prop where
  status : Status.Legal s.status
  memory : Memory.Legal s.cfg.aw s.mem
  base : s.base < 2 ^ s.cfg.aw

/-- `t` is reached from `s` by steps that each answer a next state. -/
inductive Reaches (s : State) : State → Prop
  | start : Reaches s s
  | more {t u : State} : Reaches s t → step t = .next u → Reaches s u

/-- Nothing the unit's registers hold differs, and neither does CFG; M, STATUS, CMD, RESULT and the model's own fields may. -/
def SameOperands (s t : State) : Prop :=
  t.bufBase = s.bufBase ∧ t.bufLen = s.bufLen ∧ t.valueLo = s.valueLo ∧ t.valueHi = s.valueHi ∧ t.cfg = s.cfg

/-- No command touches the model's own fields. -/
def SameEnvironment (s t : State) : Prop :=
  t.inbox = s.inbox ∧ t.replies = s.replies ∧ t.fresh = s.fresh

/-- The address lies in the view (20_memory.md R61). -/
def InView (s : State) (a : Nat) : Prop := s.base ≤ a ∧ a < s.base + s.len

/-- The address lies in the window of `d` (10_state.md R36, `bytes(d)`). -/
def InWindow (s : State) (d : Desc) (a : Nat) : Prop :=
  s.base + d.firstByte ≤ a ∧ a < s.base + d.firstByte + d.windowBytes

/-- The view lets a buffer command run: a null base is no error (20_memory.md R62, first line), the view does not pass the top
of M (R62, second line), and it is plain memory clear of the register block (R70). -/
structure BufferReady (s : State) : Prop where
  config : s.cfg.wf = true
  base : s.cfg.nullBaseCheck = true → s.base ≠ 0
  fits : s.base + s.len ≤ 2 ^ s.cfg.aw
  plain : viewPlain s = true

/-- Row `fid` of the table of format `fmt` is `d` (40_field_access.md R100). -/
def FieldIs (s : State) (fmt fid : Nat) (d : Desc) : Prop := ∃ F, s.record fmt = some F ∧ F.fields[fid]? = some d

/-- The whole window of `d` lies inside the view (20_memory.md R63). -/
def WindowFits (s : State) (d : Desc) : Prop := 4 * d.q + 4 * nq d.w ≤ s.len

/-- The raw fields of an inline descriptor are legal (40_field_access.md R103). -/
def DescLegal (d : Desc) : Prop := 1 ≤ d.w ∧ d.w ≤ 64 ∧ d.o + d.w ≤ windowBits d.w

/-- The descriptor in the low 16 bits of a word of format D (30_encoding.md R84). -/
def inlineDesc (c : Word) : Desc := ⟨bitField c 15 12, bitField c 11 7, bitField c 6 0⟩

/-- The cause of each error, as the table of 60_exceptions.md R180 and rules R182 to R189 give it, each on its own: which of
several causes is reported is R190's. -/
def Cause (c : Word) (s : State) : ErrCode → Prop
  | .opcode => 7 ≤ opField c
  | .rsvd =>
    (opField c = 0 ∧ bitField c 27 0 ≠ 0) ∨ ((opField c = 1 ∨ opField c = 2) ∧ bitField c 15 0 ≠ 0) ∨
    ((opField c = 3 ∨ opField c = 4) ∧ bitField c 23 0 ≠ 0) ∨ ((opField c = 5 ∨ opField c = 6) ∧ bitField c 27 16 ≠ 0)
  | .format => 1 ≤ opField c ∧ opField c ≤ 4 ∧ s.record (bitField c 27 24) = none
  | .field =>
    (opField c = 1 ∨ opField c = 2) ∧
    ∃ F, s.record (bitField c 27 24) = some F ∧ F.fields.length ≤ bitField c 23 16
  | .desc => (opField c = 5 ∨ opField c = 6) ∧ ¬DescLegal (inlineDesc c)
  | .nullBase => 1 ≤ opField c ∧ opField c ≤ 6 ∧ s.cfg.nullBaseCheck = true ∧ s.base = 0
  | .view => 1 ≤ opField c ∧ opField c ≤ 6 ∧ 2 ^ s.cfg.aw < s.base + s.len
  | .bounds =>
    ((opField c = 1 ∨ opField c = 2) ∧ ∃ d, FieldIs s (bitField c 27 24) (bitField c 23 16) d ∧ ¬WindowFits s d) ∨
    ((opField c = 5 ∨ opField c = 6) ∧ ¬WindowFits s (inlineDesc c)) ∨
    (opField c = 3 ∧ ∃ F, s.record (bitField c 27 24) = some F ∧ s.len < 4 * F.n)

/-- The place of an error in the priority order of 60_exceptions.md R190; E_FIELD and E_DESC share one. -/
def ErrCode.priority : ErrCode → Nat
  | .opcode => 0
  | .rsvd => 1
  | .format => 2
  | .field => 3
  | .desc => 3
  | .nullBase => 4
  | .view => 5
  | .bounds => 6

/-- The state the error procedure leaves for the command word `c` (60_exceptions.md R181): CMD holds the word, STATUS the
error, RESULT is 0 for GET and GETD, and nothing else changes. -/
def afterError (c : Word) (e : ErrCode) (s : State) : State :=
  { s with
    cmd := c
    status := { err := true, valid := false, ecode := ErrCode.code e }
    result := if opField c = 1 ∨ opField c = 5 then 0 else s.result }

/-- Stage S2's condition, with `bound` for the size the claim may not exceed (41_format_ops.md R143). -/
def ClaimAtMost (s : State) (F : Format) (bound : Nat) : Prop :=
  ∀ r, F.lenrule = some r → r.scale * s.fieldValue (Format.row F r.fid) + r.bias ≤ bound

/-- Stage S3: every check holds (41_format_ops.md R144). -/
def ChecksHold (s : State) (F : Format) : Prop :=
  ∀ ch ∈ F.checks,
    match ch with
    | .eqConst fid k => s.fieldValue (Format.row F fid) = k
    | .inRange fid lo hi => lo ≤ s.fieldValue (Format.row F fid) ∧ s.fieldValue (Format.row F fid) ≤ hi
    | .exclusive a b => ¬(s.fieldValue (Format.row F a) ≠ 0 ∧ s.fieldValue (Format.row F b) ≠ 0)

/-- The PDU is acceptable: stages S1, S2 and S3 all pass (41_format_ops.md R142 to R144). -/
def Accepts (s : State) (F : Format) : Prop := 4 * F.n ≤ s.len ∧ ClaimAtMost s F s.len ∧ ChecksHold s F

/-- Header bit `b` of the view, MSB-first (00_scope.md R8). -/
def State.headerBit (s : State) (b : Nat) : Bool := (s.bufByte (b / 8)).getLsbD (7 - b % 8)

/-- The constant of the last stamp on a field, if it has one (41_format_ops.md R151). -/
def lastStamp (F : Format) (fid : Nat) : Option Nat :=
  (F.stamps.reverse.find? (fun st => decide (st.fid = fid))).map (fun st => st.k)

end Sys2Proof.Machine
end

