-- ==== Sys2Proof/Certificates/Slice0/Obligations.lean ====
section
/-! DEFINITION. The statements for the provers, each from a numbered rule of spec/ or from sections of it. -/

open Sys2Proof Sys2Proof.Machine

/-! ## Reset, registers, STATUS -/

/-- 70_reset_and_hazards.md R200, for a reset of any state and for the state right after reset under any configuration. -/
def Obligations.ResetSetsEveryRegister : Prop :=
  (∀ (s : State) (rest : List BusOp), s.cfg.wf = true → s.inbox = .reset :: rest →
    ∃ t, step s = .next t ∧ (∀ off, readRegister t off = if off = 0x00 then 0x17220100 else 0) ∧
      t.status = ⟨false, false, 0⟩ ∧ t.cmd = 0 ∧ t.bufBase = 0 ∧ t.bufLen = 0 ∧ t.valueLo = 0 ∧ t.valueHi = 0 ∧
      t.result = 0 ∧ t.mem = s.mem ∧ t.cfg = s.cfg) ∧
  ∀ (C : Config) (off : Nat), readRegister (State.resetWith C) off = if off = 0x00 then 0x17220100 else 0

/-- The state right after reset, and the state right after reset under any configuration with a semantics, meet the
invariant. -/
def Obligations.ResetStateMeetsInvariant : Prop :=
  (State.Inv State.reset ∧ State.reset.cfg.wf = true) ∧ ∀ C : Config, C.wf = true → State.Inv (State.resetWith C)

/-- 10_state.md R23: the bits of the word a read of STATUS answers. -/
def Obligations.StatusWordHasItsFields : Prop :=
  ∀ (s : State) (i : Nat),
    (readRegister s 0x04).getLsbD i =
      if i = 0 then s.status.err
      else if i = 1 then s.status.valid
      else if 4 ≤ i ∧ i ≤ 7 then s.status.ecode.getLsbD (i - 4)
      else false

/-- 10_state.md R29. -/
def Obligations.ReadOnlyAndReservedSlotsIgnoreWrites : Prop :=
  (∀ (s : State) (off : Nat), off = 0x0C ∨ (0x28 ≤ off ∧ off ≤ 0x3C) → readRegister s off = 0) ∧
  (∀ (s : State) (off : Nat) (data : Word) (rest : List BusOp), s.cfg.wf = true →
    (off = 0x00 ∨ off = 0x04 ∨ off = 0x20 ∨ off = 0x24 ∨ off = 0x0C ∨ (off % 4 = 0 ∧ 0x28 ≤ off ∧ off ≤ 0x3C)) →
    s.inbox = .regWrite off .word data :: rest → step s = .next { s with inbox := rest }) ∧
  ∀ (s : State) (off : Nat) (rest : List BusOp), s.cfg.wf = true → off % 4 = 0 → off ≤ 0x3C →
    s.inbox = .regRead off .word :: rest →
    step s = .next { s with inbox := rest, replies := .word (readRegister s off) :: s.replies }

/-- 10_state.md R25, R26, R27: what a write of an operand register leaves to be read, and that it leaves every other register
and M alone. -/
def Obligations.OperandRegistersReadBack : Prop :=
  ∀ (s : State) (off : Nat) (data : Word) (rest : List BusOp), s.cfg.wf = true →
    (off = 0x10 ∨ off = 0x14 ∨ off = 0x18 ∨ off = 0x1C) → s.inbox = .regWrite off .word data :: rest →
    ∃ t, step s = .next t ∧ t.mem = s.mem ∧ t.cfg = s.cfg ∧ t.inbox = rest ∧ t.replies = s.replies ∧ t.fresh = s.fresh ∧
      (off = 0x10 → (readRegister t 0x10).toNat = data.toNat % 2 ^ s.cfg.aw) ∧
      (off ≠ 0x10 → readRegister t off = data) ∧
      ∀ off', off' ≠ off → readRegister t off' = readRegister s off'

/-- 10_state.md R30: the access is refused. -/
def Obligations.UndefinedRegisterAccessIsRefused : Prop :=
  ∀ (s : State) (off : Nat) (size : AccessSize) (data : Word) (rest : List BusOp), s.cfg.wf = true →
    (size ≠ .word ∨ off % 4 ≠ 0 ∨ 0x3C < off) →
    (s.inbox = .regWrite off size data :: rest → step s = .refused .registerAccess) ∧
    (s.inbox = .regRead off size :: rest → step s = .refused .registerAccess)

/-- 10_state.md R28. -/
def Obligations.OnlyGetAndGetdWriteResult : Prop :=
  (∀ s : State, s.result.toNat = (readRegister s 0x24).toNat * 2 ^ 32 + (readRegister s 0x20).toNat) ∧
  (∀ (s : State) (off : Nat) (data : Word), (writeRegister s off data).result = s.result) ∧
  ∀ (s t : State) (c : Word) (rest : List BusOp), s.inbox = .regWrite 0x08 .word c :: rest → step s = .next t →
    opField c ≠ 1 → opField c ≠ 5 → t.result = s.result

/-! ## Encoding and the step -/

/-- Words of 95_test_vectors.md decode to the commands it gives them. -/
def Obligations.SampleWordsDecode : Prop :=
  decodeWord 0x00000000 = .ok .nop ∧
  decodeWord 0x12060000 = .ok (.get 2 6) ∧
  decodeWord 0x21000000 = .ok (.set 1 0) ∧
  decodeWord 0x32000000 = .ok (.init 2) ∧
  decodeWord 0x42000000 = .ok (.isvalid 2) ∧
  decodeWord 0x50000FA1 = .ok (.getd 0 31 33) ∧
  decodeWord 0x60001E08 = .ok (.setd 1 28 8)

/-- Decode and encode agree: no operand bit is dropped, at every value the encoding admits. -/
def Obligations.DecodeOfEncodeIsTheCommand : Prop :=
  ∀ i : Instr, i.wf = true → decodeWord (encode i) = .ok i

/-- Every word that decodes is the one word of a well-formed command. -/
def Obligations.EncodeOfDecodeIsTheWord : Prop :=
  ∀ (c : Word) (i : Instr), decodeWord c = .ok i → i.wf = true ∧ encode i = c

/-- 30_encoding.md R87: the decoder and the match and mask table accept the same words and name the same command. -/
def Obligations.DecoderAgreesWithOpcodeTable : Prop :=
  ∀ c : Word,
    ((∃ i, decodeWord c = .ok i) ↔ ∃ r ∈ opcodeTable, r.hits c = true) ∧
    ∀ i, decodeWord c = .ok i → ∀ r ∈ opcodeTable, (r.hits c = true ↔ r.mnemonic = i.mnemonic)

/-- A CMD write of a word that decodes is exec of the decoded command, on the state whose bus operation has been taken; and a
placed word is such a CMD write. -/
def Obligations.StepRunsTheDecodedCommand : Prop :=
  (∀ (s : State) (c : Word) (i : Instr) (rest : List BusOp),
    s.inbox = .regWrite 0x08 .word c :: rest → decodeWord c = .ok i → step s = exec i { s with inbox := rest }) ∧
  ∀ (s : State) (c : Word) (i : Instr), decodeWord c = .ok i → step (s.withFetchWord 32 c.toNat) = exec i s

/-- Printing a well-formed command and assembling the line gives its word (30_encoding.md R91). -/
def Obligations.AssemblerReadsWhatItPrints : Prop :=
  ∀ i : Instr, i.wf = true → assembleWord (printCommand i) = some (encode i)

/-! ## Errors -/

/-- 60_exceptions.md R182. -/
def Obligations.IllegalOpcodeRaisesEOpcode : Prop :=
  ∀ (s : State) (c : Word) (rest : List BusOp), s.cfg.wf = true → s.inbox = .regWrite 0x08 .word c :: rest →
    0x70000000 ≤ c.toNat →
    step s = .next { s with inbox := rest, cmd := c, status := ⟨true, false, 1⟩ }

/-- 60_exceptions.md R183, with what R181 writes. -/
def Obligations.ReservedBitRaisesERsvd : Prop :=
  ∀ (s : State) (c : Word) (rest : List BusOp), s.cfg.wf = true → s.inbox = .regWrite 0x08 .word c :: rest →
    ((c.toNat / 2 ^ 28 = 0 ∧ c.toNat % 2 ^ 28 ≠ 0) ∨
      ((c.toNat / 2 ^ 28 = 1 ∨ c.toNat / 2 ^ 28 = 2) ∧ c.toNat % 2 ^ 16 ≠ 0) ∨
      ((c.toNat / 2 ^ 28 = 3 ∨ c.toNat / 2 ^ 28 = 4) ∧ c.toNat % 2 ^ 24 ≠ 0) ∨
      ((c.toNat / 2 ^ 28 = 5 ∨ c.toNat / 2 ^ 28 = 6) ∧ c.toNat / 2 ^ 16 % 2 ^ 12 ≠ 0)) →
    step s = .next
      { s with
        inbox := rest, cmd := c, status := ⟨true, false, 2⟩,
        result := if c.toNat / 2 ^ 28 = 1 ∨ c.toNat / 2 ^ 28 = 5 then 0 else s.result }

/-- 60_exceptions.md R184, with the reserved and the default absent codes. -/
def Obligations.AbsentFormatRaisesEFormat : Prop :=
  (∀ (s : State) (fmt fid : Nat) (i : Instr), s.cfg.wf = true → i.wf = true →
    (i = .get fmt fid ∨ i = .set fmt fid ∨ i = .init fmt ∨ i = .isvalid fmt) → s.record fmt = none →
    exec i s = .next (afterError (encode i) .format s)) ∧
  (∀ (s : State) (fmt : Nat), 4 ≤ fmt → s.record fmt = none) ∧
  ∀ k : CvfConstants, (FormatRom.default k).record 0 = none ∧ (FormatRom.default k).record 3 = none

/-- 60_exceptions.md R185. -/
def Obligations.FieldIdPastTheTableRaisesEField : Prop :=
  ∀ (s : State) (fmt fid : Nat) (F : Format), s.cfg.wf = true → fid < 256 → s.record fmt = some F → F.fields.length ≤ fid →
    exec (.get fmt fid) s =
      .next { s with cmd := encode (.get fmt fid), status := ⟨true, false, 4⟩, result := 0 } ∧
    exec (.set fmt fid) s = .next { s with cmd := encode (.set fmt fid), status := ⟨true, false, 4⟩ }

/-- 60_exceptions.md R186. -/
def Obligations.IllFormedInlineDescriptorRaisesEDesc : Prop :=
  ∀ (s : State) (q o w : Nat), s.cfg.wf = true → q < 16 → o < 32 → w < 128 →
    (w = 0 ∨ 64 < w ∨ (w ≤ 32 ∧ 32 < o + w) ∨ (33 ≤ w ∧ w ≤ 64 ∧ 64 < o + w)) →
    exec (.getd q o w) s = .next { s with cmd := encode (.getd q o w), status := ⟨true, false, 5⟩, result := 0 } ∧
    exec (.setd q o w) s = .next { s with cmd := encode (.setd q o w), status := ⟨true, false, 5⟩ }

/-- 60_exceptions.md R190: of the causes that apply, the first in the priority order is reported, with the effects of R181
alone. -/
def Obligations.FirstErrorInPriorityOrderIsReported : Prop :=
  ∀ (s : State) (c : Word) (e : ErrCode) (rest : List BusOp), s.cfg.wf = true → s.inbox = .regWrite 0x08 .word c :: rest →
    Cause c s e → (∀ e', Cause c s e' → ErrCode.priority e ≤ ErrCode.priority e') →
    step s = .next (afterError c e { s with inbox := rest })

/-- A reported error has its cause (60_exceptions.md R180), and ERR is set by nothing else. -/
def Obligations.ReportedErrorHasItsCause : Prop :=
  ∀ (s t : State) (c : Word) (rest : List BusOp), s.inbox = .regWrite 0x08 .word c :: rest → step s = .next t →
    t.status.err = true → ∃ e, Cause c s e ∧ t.status = ⟨true, false, ErrCode.code e⟩

/-- A word with no cause of an error runs without error (60_exceptions.md R180) when its view is plain memory; when it is not,
a buffer command is refused (20_memory.md R70; that the errors come first is the model's choice, log entry 8). -/
def Obligations.WithoutACauseNoErrorIsReported : Prop :=
  ∀ (s : State) (c : Word) (rest : List BusOp), s.cfg.wf = true → s.inbox = .regWrite 0x08 .word c :: rest →
    (∀ e, ¬Cause c s e) →
    ((c = 0 ∨ viewPlain s = true) → ∃ t, step s = .next t ∧ t.status.err = false ∧ t.status.ecode = 0 ∧ t.cmd = c) ∧
    (c ≠ 0 → viewPlain s = false → step s = .refused .viewNotPlain)

/-! ## NOP and field access -/

/-- 42_nop.md R170. -/
def Obligations.NopOnlyClearsStatus : Prop :=
  (∀ s : State, s.cfg.wf = true → exec .nop s = .next { s with cmd := 0, status := ⟨false, false, 0⟩ }) ∧
  (∀ (s : State) (rest : List BusOp), s.cfg.wf = true → s.inbox = .regWrite 0x08 .word 0 :: rest →
    step s = .next { s with inbox := rest, cmd := 0, status := ⟨false, false, 0⟩ }) ∧
  ∀ (s : State) (c : Word) (rest : List BusOp), s.cfg.wf = true → s.inbox = .regWrite 0x08 .word c :: rest →
    c.toNat / 2 ^ 28 = 0 → c ≠ 0 →
    step s = .next { s with inbox := rest, cmd := c, status := ⟨true, false, 2⟩ }

/-- GET completes with RESULT as 40_field_access.md R101 and R104 give it, and changes nothing else. -/
def Obligations.GetCompletesWithTheField : Prop :=
  ∀ (s : State) (fmt fid : Nat) (d : Desc), BufferReady s → FieldIs s fmt fid d → WindowFits s d →
    exec (.get fmt fid) s = .next
      { s with
        cmd := encode (.get fmt fid), status := ⟨false, false, 0⟩,
        result := BitVec.ofNat 64
          ((readWindow s.mem s.base d >>> (windowBits d.w - d.o - d.w)) &&& (2 ^ d.w - 1)) }

/-- GETD completes likewise (40_field_access.md R106). -/
def Obligations.GetdCompletesWithTheField : Prop :=
  ∀ (s : State) (q o w : Nat), BufferReady s → DescLegal ⟨q, o, w⟩ → WindowFits s ⟨q, o, w⟩ →
    exec (.getd q o w) s = .next
      { s with
        cmd := encode (.getd q o w), status := ⟨false, false, 0⟩,
        result := BitVec.ofNat 64
          ((readWindow s.mem s.base ⟨q, o, w⟩ >>> (windowBits w - o - w)) &&& (2 ^ w - 1)) }

/-- SET completes with the window R102 computes written back (40_field_access.md R105), and changes nothing else. -/
def Obligations.SetCompletesWithTheInsert : Prop :=
  ∀ (s : State) (fmt fid : Nat) (d : Desc), BufferReady s → FieldIs s fmt fid d → WindowFits s d →
    exec (.set fmt fid) s = .next
      { s with
        cmd := encode (.set fmt fid), status := ⟨false, false, 0⟩,
        mem := insertField s.mem s.base d (2 ^ 32 * s.valueHi.toNat + s.valueLo.toNat) }

/-- SETD completes likewise (40_field_access.md R107). -/
def Obligations.SetdCompletesWithTheInsert : Prop :=
  ∀ (s : State) (q o w : Nat), BufferReady s → DescLegal ⟨q, o, w⟩ → WindowFits s ⟨q, o, w⟩ →
    exec (.setd q o w) s = .next
      { s with
        cmd := encode (.setd q o w), status := ⟨false, false, 0⟩,
        mem := insertField s.mem s.base ⟨q, o, w⟩ (2 ^ 32 * s.valueHi.toNat + s.valueLo.toNat) }

/-- 40_field_access.md R108, both halves. -/
def Obligations.FieldsArePackedMostSignificantBitFirst : Prop :=
  ∀ (s : State) (d : Desc) (v : Nat), d.wf = true →
    s.fieldValue d =
      ∑ j ∈ Finset.range d.w, (s.headerBit (32 * d.q + d.o + j)).toNat * 2 ^ (d.w - 1 - j) ∧
    (∀ j, j < d.w → (s.insert d v).headerBit (32 * d.q + d.o + j) = v.testBit (d.w - 1 - j)) ∧
    ∀ b, (b < 32 * d.q + d.o ∨ 32 * d.q + d.o + d.w ≤ b) → (s.insert d v).headerBit b = s.headerBit b

/-- 40_field_access.md R109. -/
def Obligations.ExtractedValueFitsItsWidth : Prop :=
  (∀ (s : State) (d : Desc), s.fieldValue d < 2 ^ d.w) ∧
  (∀ (s t : State) (fmt fid : Nat) (d : Desc), exec (.get fmt fid) s = .next t → t.status.err = false →
    FieldIs s fmt fid d → t.result.toNat < 2 ^ d.w ∧ ∀ k, d.w ≤ k → t.result.getLsbD k = false) ∧
  ∀ (s t : State) (q o w : Nat), exec (.getd q o w) s = .next t → t.status.err = false →
    t.result.toNat < 2 ^ w ∧ ∀ k, w ≤ k → t.result.getLsbD k = false

/-- 40_field_access.md R110. -/
def Obligations.SetThenGetReturnsTheValue : Prop :=
  (∀ (s t : State) (fmt fid : Nat) (d : Desc), exec (.set fmt fid) s = .next t → t.status.err = false →
    FieldIs s fmt fid d → s.value < 2 ^ d.w →
    ∃ u, exec (.get fmt fid) t = .next u ∧ u.status.err = false ∧ u.result.toNat = s.value) ∧
  ∀ (s t : State) (q o w : Nat), exec (.setd q o w) s = .next t → t.status.err = false → s.value < 2 ^ w →
    ∃ u, exec (.getd q o w) t = .next u ∧ u.status.err = false ∧ u.result.toNat = s.value

/-- 40_field_access.md R111: a SET or SETD of a value leaves M as with the value modulo 2^w, and a following GET or GETD
returns that. -/
def Obligations.SetTruncatesTheValue : Prop :=
  (∀ (s t : State) (lo hi : Word) (fmt fid : Nat) (d : Desc), exec (.set fmt fid) s = .next t → t.status.err = false →
    FieldIs s fmt fid d → 2 ^ 32 * hi.toNat + lo.toNat = s.value % 2 ^ d.w →
    (∃ t', exec (.set fmt fid) { s with valueLo := lo, valueHi := hi } = .next t' ∧ t'.mem = t.mem) ∧
    ∃ u, exec (.get fmt fid) t = .next u ∧ u.status.err = false ∧ u.result.toNat = s.value % 2 ^ d.w) ∧
  ∀ (s t : State) (lo hi : Word) (q o w : Nat), exec (.setd q o w) s = .next t → t.status.err = false →
    2 ^ 32 * hi.toNat + lo.toNat = s.value % 2 ^ w →
    (∃ t', exec (.setd q o w) { s with valueLo := lo, valueHi := hi } = .next t' ∧ t'.mem = t.mem) ∧
    ∃ u, exec (.getd q o w) t = .next u ∧ u.status.err = false ∧ u.result.toNat = s.value % 2 ^ w

/-- 70_reset_and_hazards.md R205: both halves of VALUE are used by a wide field, VALUE_HI by no field of 32 bits or fewer. -/
def Obligations.NarrowFieldIgnoresValueHi : Prop :=
  (∀ (s t : State) (hi : Word) (q o w : Nat), w ≤ 32 → exec (.setd q o w) s = .next t → t.status.err = false →
    ∃ t', exec (.setd q o w) { s with valueHi := hi } = .next t' ∧ t'.mem = t.mem) ∧
  (∀ (s t : State) (hi : Word) (fmt fid : Nat) (d : Desc), d.w ≤ 32 → FieldIs s fmt fid d →
    exec (.set fmt fid) s = .next t → t.status.err = false →
    ∃ t', exec (.set fmt fid) { s with valueHi := hi } = .next t' ∧ t'.mem = t.mem) ∧
  ∀ (s t : State) (fmt fid : Nat) (d : Desc), FieldIs s fmt fid d → 32 < d.w → exec (.set fmt fid) s = .next t →
    t.status.err = false →
    ∃ u, exec (.get fmt fid) t = .next u ∧ u.status.err = false ∧
      u.result.toNat / 2 ^ 32 = s.valueHi.toNat % 2 ^ (d.w - 32) ∧ u.result.toNat % 2 ^ 32 = s.valueLo.toNat

/-- 40_field_access.md R112. -/
def Obligations.DisjointFieldsDoNotInterfere : Prop :=
  (∀ (s : State) (d1 d2 : Desc) (v : Nat), d1.wf = true → d2.wf = true →
    (∀ b, ¬((32 * d1.q + d1.o ≤ b ∧ b < 32 * d1.q + d1.o + d1.w) ∧ (32 * d2.q + d2.o ≤ b ∧ b < 32 * d2.q + d2.o + d2.w))) →
    (s.insert d1 v).fieldValue d2 = s.fieldValue d2) ∧
  ∀ (s t : State) (fmt fid fid' : Nat) (d' : Desc), exec (.set fmt fid) s = .next t → fid' ≠ fid →
    FieldIs s fmt fid' d' → t.fieldValue d' = s.fieldValue d'

/-- 40_field_access.md R113. -/
def Obligations.SetChangesOnlyItsField : Prop :=
  (∀ (s t : State) (fmt fid : Nat) (d : Desc), exec (.set fmt fid) s = .next t → t.status.err = false →
    FieldIs s fmt fid d →
    (∀ a, (a < s.base + 4 * d.q ∨ s.base + 4 * d.q + 4 * nq d.w ≤ a) → Memory.read t.mem a = Memory.read s.mem a) ∧
    ∀ b, (b < 32 * d.q + d.o ∨ 32 * d.q + d.o + d.w ≤ b) → t.headerBit b = s.headerBit b) ∧
  ∀ (s t : State) (q o w : Nat), exec (.setd q o w) s = .next t → t.status.err = false →
    (∀ a, (a < s.base + 4 * q ∨ s.base + 4 * q + 4 * nq w ≤ a) → Memory.read t.mem a = Memory.read s.mem a) ∧
    ∀ b, (b < 32 * q + o ∨ 32 * q + o + w ≤ b) → t.headerBit b = s.headerBit b

/-- 40_field_access.md R114, as equal memories and as equal bytes. -/
def Obligations.InsertOverwritesAndRestores : Prop :=
  ∀ (s : State) (d : Desc) (v1 v2 a : Nat), d.wf = true →
    Memory.read ((s.insert d v1).insert d v2).mem a = Memory.read (s.insert d v2).mem a ∧
    Memory.read (s.insert d (s.fieldValue d)).mem a = Memory.read s.mem a ∧
    (Memory.wf s.mem →
      ((s.insert d v1).insert d v2).mem = (s.insert d v2).mem ∧ (s.insert d (s.fieldValue d)).mem = s.mem)

/-- 40_field_access.md R115: the table form and the inline form of one descriptor end alike but for the word CMD holds. -/
def Obligations.TableAndInlineFormsAgree : Prop :=
  ∀ (s : State) (fmt fid : Nat) (d : Desc), FieldIs s fmt fid d → d.q ≤ 15 →
    (exec (.getd d.q d.o d.w) s =
      match exec (.get fmt fid) s with
      | .next t => .next { t with cmd := encode (.getd d.q d.o d.w) }
      | stop => stop) ∧
    exec (.setd d.q d.o d.w) s =
      match exec (.set fmt fid) s with
      | .next t => .next { t with cmd := encode (.setd d.q d.o d.w) }
      | stop => stop

/-- The 64-bit window at a quadlet is the two 32-bit windows side by side (20_memory.md R68). -/
def Obligations.WideWindowIsTwoQuadlets : Prop :=
  ∀ (m : Memory) (base q o w o1 w1 o2 w2 : Nat), 32 < w → w1 ≤ 32 → w2 ≤ 32 →
    readWindow m base ⟨q, o, w⟩ =
      readWindow m base ⟨q, o1, w1⟩ * 2 ^ 32 + readWindow m base ⟨q + 1, o2, w2⟩

/-! ## INIT and ISVALID -/

/-- INIT completes with the header zeroed and the stamps written in order (41_format_ops.md R140), and changes nothing else. -/
def Obligations.InitCompletesWithTheHeader : Prop :=
  ∀ (s : State) (fmt : Nat) (F : Format), BufferReady s → s.record fmt = some F → 4 * F.n ≤ s.len →
    exec (.init fmt) s = .next
      { s with
        cmd := encode (.init fmt), status := ⟨false, false, 0⟩,
        mem := F.stamps.foldl (fun m st => insertField m s.base (Format.row F st.fid) st.k)
          (Memory.writeBytes s.mem s.base (List.replicate (4 * F.n) 0)) }

/-- 41_format_ops.md R151. -/
def Obligations.InitLeavesStampsAndZeros : Prop :=
  ∀ (s t : State) (fmt : Nat) (F : Format), s.record fmt = some F → exec (.init fmt) s = .next t → t.status.err = false →
    (∀ fid d, F.fields[fid]? = some d →
      ∃ u, exec (.get fmt fid) t = .next u ∧ u.status.err = false ∧ u.result.toNat = (lastStamp F fid).getD 0) ∧
    ∀ a, s.base + 4 * F.n ≤ a → Memory.read t.mem a = Memory.read s.mem a

/-- 41_format_ops.md R152. -/
def Obligations.InitIsIdempotentAndItsHeaderIsValid : Prop :=
  (∀ (s t : State) (fmt : Nat), exec (.init fmt) s = .next t → t.status.err = false →
    ∃ u, exec (.init fmt) t = .next u ∧ u.status.err = false ∧ (∀ a, Memory.read u.mem a = Memory.read t.mem a) ∧
      (Memory.wf s.mem → u.mem = t.mem)) ∧
  ∀ (s : State), BufferReady s → s.cfg.rom = FormatRom.default CvfConstants.default → 24 ≤ s.len →
    ∃ t u, exec (.init 2) s = .next t ∧ t.status.err = false ∧ exec (.isvalid 2) t = .next u ∧
      u.status = ⟨false, true, 0⟩

/-- ISVALID completes with the verdict of stages S1, S2 and S3 (41_format_ops.md R141 to R145), and changes nothing else. -/
def Obligations.IsvalidCompletesWithTheVerdict : Prop :=
  ∀ (s : State) (fmt : Nat) (F : Format), BufferReady s → s.record fmt = some F →
    (Accepts s F →
      exec (.isvalid fmt) s = .next { s with cmd := encode (.isvalid fmt), status := ⟨false, true, 0⟩ }) ∧
    (¬Accepts s F →
      exec (.isvalid fmt) s = .next { s with cmd := encode (.isvalid fmt), status := ⟨false, false, 0⟩ })

/-- 41_format_ops.md R146. -/
def Obligations.IsvalidNeverRaisesBounds : Prop :=
  (∀ (s t : State) (fmt : Nat), exec (.isvalid fmt) s = .next t → t.status.ecode ≠ 8) ∧
  ∀ (s : State) (fmt : Nat) (F : Format), s.cfg.wf = true → s.record fmt = some F → 4 * F.n ≤ s.len →
    ∀ fid ∈ validityFields F, ∀ d, F.fields[fid]? = some d → ∀ a, InWindow s d a → InView s a

/-- 41_format_ops.md R147. -/
def Obligations.IsvalidIsRepeatable : Prop :=
  ∀ (s t : State) (fmt : Nat), fmt < 16 → exec (.isvalid fmt) s = .next t →
    t.mem = s.mem ∧ t.result = s.result ∧ ∃ u, exec (.isvalid fmt) t = .next u ∧ u.status = t.status

/-- 41_format_ops.md R148. -/
def Obligations.ValidityBoundaryIsTheHeaderLength : Prop :=
  ∀ (s : State) (fmt : Nat) (F : Format), BufferReady s → s.record fmt = some F →
    (s.len = 4 * F.n → ChecksHold s F → ClaimAtMost s F (4 * F.n) →
      exec (.isvalid fmt) s = .next { s with cmd := encode (.isvalid fmt), status := ⟨false, true, 0⟩ }) ∧
    (s.len = 4 * F.n - 1 →
      exec (.isvalid fmt) s = .next { s with cmd := encode (.isvalid fmt), status := ⟨false, false, 0⟩ })

/-- 41_format_ops.md R149. -/
def Obligations.LengthClaimPastTheBufferIsRejected : Prop :=
  ∀ (s : State) (fmt : Nat) (F : Format) (r : LenRule), BufferReady s → s.record fmt = some F → F.lenrule = some r →
    s.len < r.scale * s.fieldValue (Format.row F r.fid) + r.bias →
    exec (.isvalid fmt) s = .next { s with cmd := encode (.isvalid fmt), status := ⟨false, false, 0⟩ }

/-- 10_state.md R45: the record satisfies R38; also for every value of the CVF parameters, and for UDP, wherever the unit is
placed. -/
def Obligations.DefaultRecordsAreWellFormed : Prop :=
  udpRecord.wf = true ∧
  (∀ k : CvfConstants, k.subtype < 256 → k.formatRfc < 256 → k.fsubMax < 256 → (cvfRecord k).wf = true) ∧
  ∀ (regBase : Nat) (notPlain : List Region), (Config.placedAt regBase notPlain).wf = true

/-! ## Frames -/

/-- Frame of the commands that store nothing: NOP, GET, GETD, ISVALID. -/
def Obligations.NonStoringCommandsLeaveMemory : Prop :=
  ∀ (i : Instr) (s t : State), i.wf = true →
    (i = .nop ∨ (∃ fmt fid, i = .get fmt fid) ∨ (∃ q o w, i = .getd q o w) ∨ ∃ fmt, i = .isvalid fmt) →
    exec i s = .next t →
    (∀ a, Memory.read t.mem a = Memory.read s.mem a) ∧ SameOperands s t ∧ SameEnvironment s t ∧ t.cmd = encode i ∧
    ((i = .nop ∨ ∃ fmt, i = .isvalid fmt) → t.result = s.result) ∧
    ((∀ fmt, i ≠ .isvalid fmt) → t.status.valid = false)

/-- Frame of SET and SETD: the stored bytes are the window's, at the address the descriptor gives; with an error, none. -/
def Obligations.SetAndSetdStoreOnlyTheirWindow : Prop :=
  ∀ (i : Instr) (s t : State) (d : Desc), i.wf = true →
    ((∃ fmt fid, i = .set fmt fid ∧ FieldIs s fmt fid d) ∨ i = .setd d.q d.o d.w) → exec i s = .next t →
    (∀ a, ¬(s.base + 4 * d.q ≤ a ∧ a < s.base + 4 * d.q + 4 * nq d.w) → Memory.read t.mem a = Memory.read s.mem a) ∧
    (t.status.err = true → ∀ a, Memory.read t.mem a = Memory.read s.mem a) ∧
    SameOperands s t ∧ SameEnvironment s t ∧ t.cmd = encode i ∧ t.result = s.result ∧ t.status.valid = false

/-- A SET that names no field stores nothing; frame of INIT: the stored bytes are the header's; with an error, none. -/
def Obligations.InitStoresOnlyTheHeader : Prop :=
  (∀ (fmt fid : Nat) (s t : State), fmt < 16 → fid < 256 → (∀ d, ¬FieldIs s fmt fid d) → exec (.set fmt fid) s = .next t →
    (∀ a, Memory.read t.mem a = Memory.read s.mem a) ∧ SameOperands s t ∧ SameEnvironment s t ∧
    t.cmd = encode (.set fmt fid) ∧ t.result = s.result ∧ t.status.valid = false) ∧
  ∀ (fmt : Nat) (s t : State), fmt < 16 → exec (.init fmt) s = .next t →
    (∀ F, s.record fmt = some F → ∀ a, ¬(s.base ≤ a ∧ a < s.base + 4 * F.n) →
      Memory.read t.mem a = Memory.read s.mem a) ∧
    (t.status.err = true → ∀ a, Memory.read t.mem a = Memory.read s.mem a) ∧
    SameOperands s t ∧ SameEnvironment s t ∧ t.cmd = encode (.init fmt) ∧ t.result = s.result ∧ t.status.valid = false

/-! ## Memory, isolation, invariants -/

/-- A read after a write, and the canonical form: every write keeps it, and equal memories are equal lists. -/
def Obligations.CanonicalMemoryIsAFunctionOfItsBytes : Prop :=
  (∀ (m : Memory) (a x : Nat) (v : Byte), Memory.read (Memory.write m a v) x = if x = a then v else Memory.read m x) ∧
  (∀ (m : Memory) (a : Nat) (v : Byte), Memory.wf m → Memory.wf (Memory.write m a v)) ∧
  ∀ m m' : Memory, Memory.wf m → Memory.wf m' → (∀ a, Memory.read m a = Memory.read m' a) → m = m'

/-- The footprint of 20_memory.md R69: no byte outside it changes, none at all with an error, and without one it lies in the
view. -/
def Obligations.CommandsTouchOnlyTheirFootprint : Prop :=
  ∀ (i : Instr) (s t : State), exec i s = .next t →
    (∀ a, a ∉ footprint s i → Memory.read t.mem a = Memory.read s.mem a) ∧
    (t.status.err = true → t.mem = s.mem) ∧
    (t.status.err = false → ∀ a ∈ footprint s i, InView s a)

/-- 10_state.md R34: the outcome is a function of CFG, the command, BUF_BASE, BUF_LEN, VALUE and the bytes of the view. -/
def Obligations.OutcomeDependsOnlyOnOperandsAndView : Prop :=
  ∀ (i : Instr) (s s' t : State), i.wf = true → exec i s = .next t → SameOperands s s' →
    (∀ a, InView s a → Memory.read s'.mem a = Memory.read s.mem a) →
    ∃ t', exec i s' = .next t' ∧ t'.status = t.status ∧ t'.cmd = t.cmd ∧
      (((∃ fmt fid, i = .get fmt fid) ∨ ∃ q o w, i = .getd q o w) → t'.result = t.result) ∧
      ∀ a, InView s a → Memory.read t'.mem a = Memory.read t.mem a

/-- Every step keeps the invariant: STATUS legal, M canonical and inside its address space, BUF_BASE below 2^AW. -/
def Obligations.EveryStepKeepsTheInvariant : Prop :=
  ∀ s t : State, State.Inv s → step s = .next t → State.Inv t

/-- 10_state.md R39. -/
def Obligations.ConfigurationIsImmutable : Prop :=
  (∀ s t : State, Reaches s t → t.cfg = s.cfg) ∧
  (∀ (s : State), s.cfg.wf = false → step s = .refused .illFormedConfig ∧ ∀ i, exec i s = .refused .illFormedConfig) ∧
  ∀ (C : Config) (c : Nat) (F : Format), C.rom.record c = some F → F.wf = false → C.wf = false

/-! ## Host accesses, abandoned and contended commands -/

/-- A host byte access of M where there is plain memory (20_memory.md R60, 30_encoding.md R92). The last clause, the fault at
2^AW or more, is the model's choice (log entry 13, DEDUCED): R60 ends M there, and the spec gives such an access no outcome. -/
def Obligations.HostAccessesReadAndWriteMemory : Prop :=
  ∀ (s : State) (a : Nat) (b : Byte) (rest : List BusOp), s.cfg.wf = true →
    (a < 2 ^ s.cfg.aw → ¬(s.cfg.regBase ≤ a ∧ a < s.cfg.regBase + 64) →
      (∀ r ∈ s.cfg.notPlain, ¬(r.base ≤ a ∧ a < r.base + r.size)) →
      (s.inbox = .memWrite a b :: rest → step s = .next { s with inbox := rest, mem := Memory.write s.mem a b }) ∧
      (s.inbox = .memRead a :: rest →
        step s = .next { s with inbox := rest, replies := .byte (Memory.read s.mem a) :: s.replies })) ∧
    (2 ^ s.cfg.aw ≤ a → s.inbox = .memWrite a b :: rest ∨ s.inbox = .memRead a :: rest →
      step s = .fault (.noSuchAddress a))

/-- 70_reset_and_hazards.md R202 over the footprint of 20_memory.md R69, for a command the model gives a meaning. A command
that raises an error touches no byte (R69); which bytes another one touches (for ISVALID every field it may read, none when S1
rejects) is the model's reading, log entry 9, DEDUCED. -/
def Obligations.ResetAbandonsARunningCommand : Prop :=
  ∀ (s u : State) (c : Word) (rest : List BusOp), s.cfg.wf = true → s.inbox = .resetDuring c :: rest →
    executeWord c { s with inbox := rest } = .next u →
    ∃ t, step s = .next t ∧ (∀ off, readRegister t off = if off = 0x00 then 0x17220100 else 0) ∧ t.cfg = s.cfg ∧
      (∀ a ∉ touchedBytes c s u, Memory.read t.mem a = Memory.read s.mem a) ∧
      ∀ a ∈ touchedBytes c s u, ∃ n, Memory.read t.mem a = Config.freeByte n

/-- 20_memory.md R79 and R71: a contended command leaves free values in its footprint, in VALID, and in RESULT if it writes
RESULT (which of the two are free for which command, and ISVALID's footprint, are the model's reading, log entry 9); every other byte and register is as
without contention; a command that touches no byte runs as always; and the premise OTHER_WRITERS = false excludes the case. -/
def Obligations.ContendedCommandLeavesFreeValuesInItsFootprint : Prop :=
  ∀ (s u : State) (c : Word) (rest : List BusOp), s.cfg.wf = true → s.inbox = .contendedCmd c :: rest →
    executeWord c { s with inbox := rest } = .next u →
    (s.cfg.otherWriters = false → step s = .refused .contentionExcluded) ∧
    (s.cfg.otherWriters = true → touchedBytes c s u = [] → step s = .next u) ∧
    (s.cfg.otherWriters = true → touchedBytes c s u ≠ [] →
      ∃ t, step s = .next t ∧ t.cmd = u.cmd ∧ SameOperands u t ∧ t.status.err = false ∧ t.status.ecode = 0 ∧
        t.inbox = u.inbox ∧ t.replies = u.replies ∧
        (∃ n, t.status.valid = Config.freeValid n) ∧
        (opField c = 1 ∨ opField c = 5 → ∃ n, t.result = Config.freeResult n) ∧
        (opField c ≠ 1 → opField c ≠ 5 → t.result = u.result) ∧
        (∀ a ∉ touchedBytes c s u, Memory.read t.mem a = Memory.read u.mem a) ∧
        ∀ a ∈ touchedBytes c s u, ∃ n, Memory.read t.mem a = Config.freeByte n)
end

