-- ==== Sys2Proof/Laws/Decode.lean ====
section
/-! SUPPORT. The decoder, one lemma per opcode (30_encoding.md R88): proofs cite these instead of unfolding its match. -/

namespace Sys2Proof

theorem opField_lt (c : Word) : opField c < 16 := Nat.mod_lt _ (by decide)

theorem decodeWord_op0 {c : Word} (h : opField c = 0) :
    decodeWord c = if bitField c 27 0 = 0 then .ok .nop else .error .reservedBits := by
  simp only [decodeWord, h]

theorem decodeWord_op1 {c : Word} (h : opField c = 1) :
    decodeWord c = if bitField c 15 0 = 0 then .ok (.get (bitField c 27 24) (bitField c 23 16)) else .error .reservedBits := by
  simp only [decodeWord, h]

theorem decodeWord_op2 {c : Word} (h : opField c = 2) :
    decodeWord c = if bitField c 15 0 = 0 then .ok (.set (bitField c 27 24) (bitField c 23 16)) else .error .reservedBits := by
  simp only [decodeWord, h]

theorem decodeWord_op3 {c : Word} (h : opField c = 3) :
    decodeWord c = if bitField c 23 0 = 0 then .ok (.init (bitField c 27 24)) else .error .reservedBits := by
  simp only [decodeWord, h]

theorem decodeWord_op4 {c : Word} (h : opField c = 4) :
    decodeWord c = if bitField c 23 0 = 0 then .ok (.isvalid (bitField c 27 24)) else .error .reservedBits := by
  simp only [decodeWord, h]

theorem decodeWord_op5 {c : Word} (h : opField c = 5) :
    decodeWord c = if bitField c 27 16 = 0 then .ok (.getd (bitField c 15 12) (bitField c 11 7) (bitField c 6 0))
      else .error .reservedBits := by
  simp only [decodeWord, h]

theorem decodeWord_op6 {c : Word} (h : opField c = 6) :
    decodeWord c = if bitField c 27 16 = 0 then .ok (.setd (bitField c 15 12) (bitField c 11 7) (bitField c 6 0))
      else .error .reservedBits := by
  simp only [decodeWord, h]

theorem decodeWord_illegal {c : Word} (h : 7 ≤ opField c) : decodeWord c = .error .illegalOpcode := by
  unfold decodeWord
  split <;> first | omega | rfl

end Sys2Proof
end

