-- ==== Sys2Proof/Laws/PerInstr.lean ====
section
/-! SUPPORT. A family of lemmas over the commands as syntax, one per constructor: the encoder writes each command's own opcode
(30_encoding.md R87) and, below it, exactly the operand bits of R91, with no wrap. -/

namespace Sys2Proof.Laws.OwnOpcode

/-- The OP column of 30_encoding.md R87. -/
def opcodeOf : Instr → Nat
  | .nop => 0
  | .get _ _ => 1
  | .set _ _ => 2
  | .init _ => 3
  | .isvalid _ => 4
  | .getd _ _ _ => 5
  | .setd _ _ _ => 6

/-- The operand bits of 30_encoding.md R91. -/
def operandBits : Instr → Nat
  | .nop => 0
  | .get fmt fid => fmt * 2 ^ 24 + fid * 2 ^ 16
  | .set fmt fid => fmt * 2 ^ 24 + fid * 2 ^ 16
  | .init fmt => fmt * 2 ^ 24
  | .isvalid fmt => fmt * 2 ^ 24
  | .getd q o w => q * 2 ^ 12 + o * 2 ^ 7 + w
  | .setd q o w => q * 2 ^ 12 + o * 2 ^ 7 + w

/-- The word of a well-formed command is its opcode in bits [31:28] and its operand bits below. -/
def Statement (i : Instr) : Prop :=
  i.wf = true → opField (encode i) = opcodeOf i ∧ (encode i).toNat = opcodeOf i * 2 ^ 28 + operandBits i

theorem nop : Statement .nop := fun _ => by decide

theorem get (fmt fid : Nat) : Statement (.get fmt fid) := by
  intro h
  simp only [Instr.wf, Bool.and_eq_true, decide_eq_true_eq] at h
  simp only [opField, bitField, encode, opcodeOf, operandBits, BitVec.toNat_ofNat]
  omega

theorem set (fmt fid : Nat) : Statement (.set fmt fid) := by
  intro h
  simp only [Instr.wf, Bool.and_eq_true, decide_eq_true_eq] at h
  simp only [opField, bitField, encode, opcodeOf, operandBits, BitVec.toNat_ofNat]
  omega

theorem init (fmt : Nat) : Statement (.init fmt) := by
  intro h
  simp only [Instr.wf, decide_eq_true_eq] at h
  simp only [opField, bitField, encode, opcodeOf, operandBits, BitVec.toNat_ofNat]
  omega

theorem isvalid (fmt : Nat) : Statement (.isvalid fmt) := by
  intro h
  simp only [Instr.wf, decide_eq_true_eq] at h
  simp only [opField, bitField, encode, opcodeOf, operandBits, BitVec.toNat_ofNat]
  omega

theorem getd (q o w : Nat) : Statement (.getd q o w) := by
  intro h
  simp only [Instr.wf, Bool.and_eq_true, decide_eq_true_eq] at h
  simp only [opField, bitField, encode, opcodeOf, operandBits, BitVec.toNat_ofNat]
  omega

theorem setd (q o w : Nat) : Statement (.setd q o w) := by
  intro h
  simp only [Instr.wf, Bool.and_eq_true, decide_eq_true_eq] at h
  simp only [opField, bitField, encode, opcodeOf, operandBits, BitVec.toNat_ofNat]
  omega

end Sys2Proof.Laws.OwnOpcode
end

