-- ==== Sys2Proof/Laws/Rom.lean ====
section
/-! SUPPORT. What a well-formed configuration gives (10_state.md R37 to R39). -/

namespace Sys2Proof

theorem nq_pos (w : Nat) : 1 ≤ nq w := by unfold nq; split <;> omega

theorem nq_le (w : Nat) : nq w ≤ 2 := by unfold nq; split <;> omega

/-- The address width of a configuration that has a semantics. -/
theorem Config.aw_of_wf {C : Config} (h : C.wf = true) : 1 ≤ C.aw ∧ C.aw ≤ 32 := by
  simp [Config.wf] at h; tauto

/-- A present record of a configuration that has a semantics is well-formed. -/
theorem Config.record_wf {C : Config} (h : C.wf = true) {fmt : Nat} {F : Format} (hF : C.rom.record fmt = some F) :
    F.wf = true := by
  have h4 : Config.recordOk C.rom.avtp = true ∧ Config.recordOk C.rom.udp = true ∧
      Config.recordOk C.rom.cvf = true ∧ Config.recordOk C.rom.most = true := by
    simp only [Config.wf, Bool.and_eq_true] at h; tauto
  match fmt, hF with
  | 0, hF => have := h4.1; simp only [FormatRom.record] at hF; rwa [hF] at this
  | 1, hF => have := h4.2.1; simp only [FormatRom.record] at hF; rwa [hF] at this
  | 2, hF => have := h4.2.2.1; simp only [FormatRom.record] at hF; rwa [hF] at this
  | 3, hF => have := h4.2.2.2; simp only [FormatRom.record] at hF; rwa [hF] at this
  | n + 4, hF => simp [FormatRom.record] at hF

/-- Only codes 0 to 3 can be present. -/
theorem FormatRom.record_lt {rom : FormatRom} {fmt : Nat} {F : Format} (hF : rom.record fmt = some F) : fmt < 4 := by
  match fmt, hF with
  | 0, _ | 1, _ | 2, _ | 3, _ => omega
  | n + 4, hF => simp [FormatRom.record] at hF

namespace Format

/-- The parts of a record's well-formedness that R38 numbers. -/
theorem wf_iff {F : Format} :
    F.wf = true ↔
      1 ≤ F.n ∧ F.n ≤ 256 ∧ F.fields.length ≤ 256 ∧ (∀ d ∈ F.fields, d.wf = true ∧ d.q + nq d.w ≤ F.n) ∧
      pairwiseDisjoint F.fields = true ∧ (∀ st ∈ F.stamps, F.fits st.fid st.k = true) ∧
      (∀ r, F.lenrule = some r → r.fid < F.fields.length) ∧ ∀ ch ∈ F.checks, F.checkOk ch = true := by
  cases h : F.lenrule <;> simp [Format.wf, h, and_assoc]

/-- A row of a well-formed table (10_state.md R38 (a), (b)). -/
theorem row_wf {F : Format} (h : F.wf = true) {fid : Nat} {d : Desc} (hd : F.fields[fid]? = some d) :
    d.wf = true ∧ d.q + nq d.w ≤ F.n :=
  (wf_iff.mp h).2.2.2.1 d (List.mem_of_getElem? hd)

end Format

theorem Desc.disjoint_comm (d e : Desc) : d.disjoint e = e.disjoint d := by
  unfold Desc.disjoint; exact Bool.or_comm _ _

/-- Distinct rows of a table are disjoint (10_state.md R38 (c)). -/
theorem pairwiseDisjoint_rows {ds : List Desc} (h : pairwiseDisjoint ds = true) {i j : Nat} {d e : Desc} (hij : i ≠ j)
    (hi : ds[i]? = some d) (hj : ds[j]? = some e) : d.disjoint e = true := by
  induction ds generalizing i j with
  | nil => simp at hi
  | cons x xs ih =>
    simp only [pairwiseDisjoint, Bool.and_eq_true, List.all_eq_true] at h
    match i, j with
    | 0, 0 => exact absurd rfl hij
    | 0, j + 1 =>
      simp only [List.getElem?_cons_zero, Option.some.injEq, List.getElem?_cons_succ] at hi hj
      exact hi ▸ h.1 e (List.mem_of_getElem? hj)
    | i + 1, 0 =>
      simp only [List.getElem?_cons_zero, Option.some.injEq, List.getElem?_cons_succ] at hi hj
      rw [Desc.disjoint_comm]
      exact hj ▸ h.1 d (List.mem_of_getElem? hi)
    | i + 1, j + 1 => exact ih h.2 (by omega) hi hj

namespace Machine

theorem Format.row_of_getElem? {F : Format} {fid : Nat} {d : Desc} (h : F.fields[fid]? = some d) :
    Format.row F fid = d := by simp [Format.row, h]

theorem Format.getElem?_row {F : Format} {fid : Nat} (h : fid < F.fields.length) :
    F.fields[fid]? = some (Format.row F fid) := by simp [Format.row, h]

/-- A field that can hold a value exists. -/
theorem Format.lt_of_fits {F : Format} {fid k : Nat} (h : F.fits fid k = true) :
    fid < F.fields.length ∧ k < 2 ^ (Format.row F fid).w := by
  unfold Format.fits at h
  split at h
  · rename_i d hd
    exact ⟨(List.getElem?_eq_some_iff.mp hd).1, by rw [Format.row_of_getElem? hd]; simpa using h⟩
  · simp at h

end Machine

end Sys2Proof
end

