-- ==== Sys2Proof/Laws/State.lean ====
section
/-! SUPPORT. One lemma per field per update of the state, each true by rfl. -/

namespace Sys2Proof.Machine

@[simp] theorem State.setResult_status (v : Nat) (s : State) : (s.setResult v).status = s.status := rfl
@[simp] theorem State.setResult_cmd (v : Nat) (s : State) : (s.setResult v).cmd = s.cmd := rfl
@[simp] theorem State.setResult_bufBase (v : Nat) (s : State) : (s.setResult v).bufBase = s.bufBase := rfl
@[simp] theorem State.setResult_bufLen (v : Nat) (s : State) : (s.setResult v).bufLen = s.bufLen := rfl
@[simp] theorem State.setResult_valueLo (v : Nat) (s : State) : (s.setResult v).valueLo = s.valueLo := rfl
@[simp] theorem State.setResult_valueHi (v : Nat) (s : State) : (s.setResult v).valueHi = s.valueHi := rfl
@[simp] theorem State.setResult_result (v : Nat) (s : State) : (s.setResult v).result = BitVec.ofNat 64 v := rfl
@[simp] theorem State.setResult_mem (v : Nat) (s : State) : (s.setResult v).mem = s.mem := rfl
@[simp] theorem State.setResult_cfg (v : Nat) (s : State) : (s.setResult v).cfg = s.cfg := rfl
@[simp] theorem State.setResult_inbox (v : Nat) (s : State) : (s.setResult v).inbox = s.inbox := rfl
@[simp] theorem State.setResult_replies (v : Nat) (s : State) : (s.setResult v).replies = s.replies := rfl
@[simp] theorem State.setResult_fresh (v : Nat) (s : State) : (s.setResult v).fresh = s.fresh := rfl

@[simp] theorem State.setMem_status (m : Memory) (s : State) : (s.setMem m).status = s.status := rfl
@[simp] theorem State.setMem_cmd (m : Memory) (s : State) : (s.setMem m).cmd = s.cmd := rfl
@[simp] theorem State.setMem_bufBase (m : Memory) (s : State) : (s.setMem m).bufBase = s.bufBase := rfl
@[simp] theorem State.setMem_bufLen (m : Memory) (s : State) : (s.setMem m).bufLen = s.bufLen := rfl
@[simp] theorem State.setMem_valueLo (m : Memory) (s : State) : (s.setMem m).valueLo = s.valueLo := rfl
@[simp] theorem State.setMem_valueHi (m : Memory) (s : State) : (s.setMem m).valueHi = s.valueHi := rfl
@[simp] theorem State.setMem_result (m : Memory) (s : State) : (s.setMem m).result = s.result := rfl
@[simp] theorem State.setMem_mem (m : Memory) (s : State) : (s.setMem m).mem = m := rfl
@[simp] theorem State.setMem_cfg (m : Memory) (s : State) : (s.setMem m).cfg = s.cfg := rfl
@[simp] theorem State.setMem_inbox (m : Memory) (s : State) : (s.setMem m).inbox = s.inbox := rfl
@[simp] theorem State.setMem_replies (m : Memory) (s : State) : (s.setMem m).replies = s.replies := rfl
@[simp] theorem State.setMem_fresh (m : Memory) (s : State) : (s.setMem m).fresh = s.fresh := rfl

@[simp] theorem State.setStatus_status (st : Status) (s : State) : (s.setStatus st).status = st := rfl
@[simp] theorem State.setStatus_cmd (st : Status) (s : State) : (s.setStatus st).cmd = s.cmd := rfl
@[simp] theorem State.setStatus_bufBase (st : Status) (s : State) : (s.setStatus st).bufBase = s.bufBase := rfl
@[simp] theorem State.setStatus_bufLen (st : Status) (s : State) : (s.setStatus st).bufLen = s.bufLen := rfl
@[simp] theorem State.setStatus_valueLo (st : Status) (s : State) : (s.setStatus st).valueLo = s.valueLo := rfl
@[simp] theorem State.setStatus_valueHi (st : Status) (s : State) : (s.setStatus st).valueHi = s.valueHi := rfl
@[simp] theorem State.setStatus_result (st : Status) (s : State) : (s.setStatus st).result = s.result := rfl
@[simp] theorem State.setStatus_mem (st : Status) (s : State) : (s.setStatus st).mem = s.mem := rfl
@[simp] theorem State.setStatus_cfg (st : Status) (s : State) : (s.setStatus st).cfg = s.cfg := rfl
@[simp] theorem State.setStatus_inbox (st : Status) (s : State) : (s.setStatus st).inbox = s.inbox := rfl
@[simp] theorem State.setStatus_replies (st : Status) (s : State) : (s.setStatus st).replies = s.replies := rfl
@[simp] theorem State.setStatus_fresh (st : Status) (s : State) : (s.setStatus st).fresh = s.fresh := rfl

@[simp] theorem State.insert_status (d : Desc) (v : Nat) (s : State) : (s.insert d v).status = s.status := rfl
@[simp] theorem State.insert_cmd (d : Desc) (v : Nat) (s : State) : (s.insert d v).cmd = s.cmd := rfl
@[simp] theorem State.insert_bufBase (d : Desc) (v : Nat) (s : State) : (s.insert d v).bufBase = s.bufBase := rfl
@[simp] theorem State.insert_bufLen (d : Desc) (v : Nat) (s : State) : (s.insert d v).bufLen = s.bufLen := rfl
@[simp] theorem State.insert_valueLo (d : Desc) (v : Nat) (s : State) : (s.insert d v).valueLo = s.valueLo := rfl
@[simp] theorem State.insert_valueHi (d : Desc) (v : Nat) (s : State) : (s.insert d v).valueHi = s.valueHi := rfl
@[simp] theorem State.insert_result (d : Desc) (v : Nat) (s : State) : (s.insert d v).result = s.result := rfl
@[simp] theorem State.insert_mem (d : Desc) (v : Nat) (s : State) : (s.insert d v).mem = insertField s.mem s.base d v := rfl
@[simp] theorem State.insert_cfg (d : Desc) (v : Nat) (s : State) : (s.insert d v).cfg = s.cfg := rfl
@[simp] theorem State.insert_inbox (d : Desc) (v : Nat) (s : State) : (s.insert d v).inbox = s.inbox := rfl
@[simp] theorem State.insert_replies (d : Desc) (v : Nat) (s : State) : (s.insert d v).replies = s.replies := rfl
@[simp] theorem State.insert_fresh (d : Desc) (v : Nat) (s : State) : (s.insert d v).fresh = s.fresh := rfl

@[simp] theorem State.answer_status (r : Reply) (s : State) : (s.answer r).status = s.status := rfl
@[simp] theorem State.answer_cmd (r : Reply) (s : State) : (s.answer r).cmd = s.cmd := rfl
@[simp] theorem State.answer_bufBase (r : Reply) (s : State) : (s.answer r).bufBase = s.bufBase := rfl
@[simp] theorem State.answer_bufLen (r : Reply) (s : State) : (s.answer r).bufLen = s.bufLen := rfl
@[simp] theorem State.answer_valueLo (r : Reply) (s : State) : (s.answer r).valueLo = s.valueLo := rfl
@[simp] theorem State.answer_valueHi (r : Reply) (s : State) : (s.answer r).valueHi = s.valueHi := rfl
@[simp] theorem State.answer_result (r : Reply) (s : State) : (s.answer r).result = s.result := rfl
@[simp] theorem State.answer_mem (r : Reply) (s : State) : (s.answer r).mem = s.mem := rfl
@[simp] theorem State.answer_cfg (r : Reply) (s : State) : (s.answer r).cfg = s.cfg := rfl
@[simp] theorem State.answer_inbox (r : Reply) (s : State) : (s.answer r).inbox = s.inbox := rfl
@[simp] theorem State.answer_replies (r : Reply) (s : State) : (s.answer r).replies = r :: s.replies := rfl
@[simp] theorem State.answer_fresh (r : Reply) (s : State) : (s.answer r).fresh = s.fresh := rfl

@[simp] theorem State.pushCommand_status (w : Word) (s : State) : (s.pushCommand w).status = s.status := rfl
@[simp] theorem State.pushCommand_cmd (w : Word) (s : State) : (s.pushCommand w).cmd = s.cmd := rfl
@[simp] theorem State.pushCommand_bufBase (w : Word) (s : State) : (s.pushCommand w).bufBase = s.bufBase := rfl
@[simp] theorem State.pushCommand_bufLen (w : Word) (s : State) : (s.pushCommand w).bufLen = s.bufLen := rfl
@[simp] theorem State.pushCommand_valueLo (w : Word) (s : State) : (s.pushCommand w).valueLo = s.valueLo := rfl
@[simp] theorem State.pushCommand_valueHi (w : Word) (s : State) : (s.pushCommand w).valueHi = s.valueHi := rfl
@[simp] theorem State.pushCommand_result (w : Word) (s : State) : (s.pushCommand w).result = s.result := rfl
@[simp] theorem State.pushCommand_mem (w : Word) (s : State) : (s.pushCommand w).mem = s.mem := rfl
@[simp] theorem State.pushCommand_cfg (w : Word) (s : State) : (s.pushCommand w).cfg = s.cfg := rfl
@[simp] theorem State.pushCommand_inbox (w : Word) (s : State) : (s.pushCommand w).inbox = .regWrite 0x08 .word w :: s.inbox := rfl
@[simp] theorem State.pushCommand_replies (w : Word) (s : State) : (s.pushCommand w).replies = s.replies := rfl
@[simp] theorem State.pushCommand_fresh (w : Word) (s : State) : (s.pushCommand w).fresh = s.fresh := rfl

@[simp] theorem beginCommand_status (c : Word) (s : State) : (beginCommand c s).status = Status.clear := rfl
@[simp] theorem beginCommand_cmd (c : Word) (s : State) : (beginCommand c s).cmd = c := rfl
@[simp] theorem beginCommand_bufBase (c : Word) (s : State) : (beginCommand c s).bufBase = s.bufBase := rfl
@[simp] theorem beginCommand_bufLen (c : Word) (s : State) : (beginCommand c s).bufLen = s.bufLen := rfl
@[simp] theorem beginCommand_valueLo (c : Word) (s : State) : (beginCommand c s).valueLo = s.valueLo := rfl
@[simp] theorem beginCommand_valueHi (c : Word) (s : State) : (beginCommand c s).valueHi = s.valueHi := rfl
@[simp] theorem beginCommand_result (c : Word) (s : State) : (beginCommand c s).result = s.result := rfl
@[simp] theorem beginCommand_mem (c : Word) (s : State) : (beginCommand c s).mem = s.mem := rfl
@[simp] theorem beginCommand_cfg (c : Word) (s : State) : (beginCommand c s).cfg = s.cfg := rfl
@[simp] theorem beginCommand_inbox (c : Word) (s : State) : (beginCommand c s).inbox = s.inbox := rfl
@[simp] theorem beginCommand_replies (c : Word) (s : State) : (beginCommand c s).replies = s.replies := rfl
@[simp] theorem beginCommand_fresh (c : Word) (s : State) : (beginCommand c s).fresh = s.fresh := rfl

@[simp] theorem raiseError_status (e : ErrCode) (s : State) : (raiseError e s).status = Status.ofError e := rfl
@[simp] theorem raiseError_cmd (e : ErrCode) (s : State) : (raiseError e s).cmd = s.cmd := rfl
@[simp] theorem raiseError_bufBase (e : ErrCode) (s : State) : (raiseError e s).bufBase = s.bufBase := rfl
@[simp] theorem raiseError_bufLen (e : ErrCode) (s : State) : (raiseError e s).bufLen = s.bufLen := rfl
@[simp] theorem raiseError_valueLo (e : ErrCode) (s : State) : (raiseError e s).valueLo = s.valueLo := rfl
@[simp] theorem raiseError_valueHi (e : ErrCode) (s : State) : (raiseError e s).valueHi = s.valueHi := rfl
@[simp] theorem raiseError_result (e : ErrCode) (s : State) : (raiseError e s).result = if writesResult s.cmd then 0 else s.result := rfl
@[simp] theorem raiseError_mem (e : ErrCode) (s : State) : (raiseError e s).mem = s.mem := rfl
@[simp] theorem raiseError_cfg (e : ErrCode) (s : State) : (raiseError e s).cfg = s.cfg := rfl
@[simp] theorem raiseError_inbox (e : ErrCode) (s : State) : (raiseError e s).inbox = s.inbox := rfl
@[simp] theorem raiseError_replies (e : ErrCode) (s : State) : (raiseError e s).replies = s.replies := rfl
@[simp] theorem raiseError_fresh (e : ErrCode) (s : State) : (raiseError e s).fresh = s.fresh := rfl

@[simp] theorem freeOutcome_status (c : Word) (s : State) : (freeOutcome c s).status = { s.status with valid := Config.freeValid s.fresh } := rfl
@[simp] theorem freeOutcome_cmd (c : Word) (s : State) : (freeOutcome c s).cmd = s.cmd := rfl
@[simp] theorem freeOutcome_bufBase (c : Word) (s : State) : (freeOutcome c s).bufBase = s.bufBase := rfl
@[simp] theorem freeOutcome_bufLen (c : Word) (s : State) : (freeOutcome c s).bufLen = s.bufLen := rfl
@[simp] theorem freeOutcome_valueLo (c : Word) (s : State) : (freeOutcome c s).valueLo = s.valueLo := rfl
@[simp] theorem freeOutcome_valueHi (c : Word) (s : State) : (freeOutcome c s).valueHi = s.valueHi := rfl
@[simp] theorem freeOutcome_result (c : Word) (s : State) : (freeOutcome c s).result = if writesResult c then Config.freeResult s.fresh else s.result := rfl
@[simp] theorem freeOutcome_mem (c : Word) (s : State) : (freeOutcome c s).mem = s.mem := rfl
@[simp] theorem freeOutcome_cfg (c : Word) (s : State) : (freeOutcome c s).cfg = s.cfg := rfl
@[simp] theorem freeOutcome_inbox (c : Word) (s : State) : (freeOutcome c s).inbox = s.inbox := rfl
@[simp] theorem freeOutcome_replies (c : Word) (s : State) : (freeOutcome c s).replies = s.replies := rfl
@[simp] theorem freeOutcome_fresh (c : Word) (s : State) : (freeOutcome c s).fresh = s.fresh + 1 := rfl

@[simp] theorem resetRegisters_status (s : State) : (resetRegisters s).status = { err := false, valid := false, ecode := 0 } := rfl
@[simp] theorem resetRegisters_cmd (s : State) : (resetRegisters s).cmd = 0 := rfl
@[simp] theorem resetRegisters_bufBase (s : State) : (resetRegisters s).bufBase = 0 := rfl
@[simp] theorem resetRegisters_bufLen (s : State) : (resetRegisters s).bufLen = 0 := rfl
@[simp] theorem resetRegisters_valueLo (s : State) : (resetRegisters s).valueLo = 0 := rfl
@[simp] theorem resetRegisters_valueHi (s : State) : (resetRegisters s).valueHi = 0 := rfl
@[simp] theorem resetRegisters_result (s : State) : (resetRegisters s).result = 0 := rfl
@[simp] theorem resetRegisters_mem (s : State) : (resetRegisters s).mem = s.mem := rfl
@[simp] theorem resetRegisters_cfg (s : State) : (resetRegisters s).cfg = s.cfg := rfl
@[simp] theorem resetRegisters_inbox (s : State) : (resetRegisters s).inbox = s.inbox := rfl
@[simp] theorem resetRegisters_replies (s : State) : (resetRegisters s).replies = s.replies := rfl
@[simp] theorem resetRegisters_fresh (s : State) : (resetRegisters s).fresh = s.fresh := rfl

@[simp] theorem State.setResult_base (v : Nat) (s : State) : (s.setResult v).base = s.base := rfl
@[simp] theorem State.setResult_len (v : Nat) (s : State) : (s.setResult v).len = s.len := rfl
@[simp] theorem State.setResult_value (v : Nat) (s : State) : (s.setResult v).value = s.value := rfl
@[simp] theorem State.setResult_record (v : Nat) (s : State) (fmt : Nat) : (s.setResult v).record fmt = s.record fmt := rfl
@[simp] theorem State.setMem_base (m : Memory) (s : State) : (s.setMem m).base = s.base := rfl
@[simp] theorem State.setMem_len (m : Memory) (s : State) : (s.setMem m).len = s.len := rfl
@[simp] theorem State.setMem_value (m : Memory) (s : State) : (s.setMem m).value = s.value := rfl
@[simp] theorem State.setMem_record (m : Memory) (s : State) (fmt : Nat) : (s.setMem m).record fmt = s.record fmt := rfl
@[simp] theorem State.setStatus_base (st : Status) (s : State) : (s.setStatus st).base = s.base := rfl
@[simp] theorem State.setStatus_len (st : Status) (s : State) : (s.setStatus st).len = s.len := rfl
@[simp] theorem State.setStatus_value (st : Status) (s : State) : (s.setStatus st).value = s.value := rfl
@[simp] theorem State.setStatus_record (st : Status) (s : State) (fmt : Nat) : (s.setStatus st).record fmt = s.record fmt := rfl
@[simp] theorem State.insert_base (d : Desc) (v : Nat) (s : State) : (s.insert d v).base = s.base := rfl
@[simp] theorem State.insert_len (d : Desc) (v : Nat) (s : State) : (s.insert d v).len = s.len := rfl
@[simp] theorem State.insert_value (d : Desc) (v : Nat) (s : State) : (s.insert d v).value = s.value := rfl
@[simp] theorem State.insert_record (d : Desc) (v : Nat) (s : State) (fmt : Nat) : (s.insert d v).record fmt = s.record fmt := rfl
@[simp] theorem State.answer_base (r : Reply) (s : State) : (s.answer r).base = s.base := rfl
@[simp] theorem State.answer_len (r : Reply) (s : State) : (s.answer r).len = s.len := rfl
@[simp] theorem State.answer_value (r : Reply) (s : State) : (s.answer r).value = s.value := rfl
@[simp] theorem State.answer_record (r : Reply) (s : State) (fmt : Nat) : (s.answer r).record fmt = s.record fmt := rfl
@[simp] theorem State.pushCommand_base (w : Word) (s : State) : (s.pushCommand w).base = s.base := rfl
@[simp] theorem State.pushCommand_len (w : Word) (s : State) : (s.pushCommand w).len = s.len := rfl
@[simp] theorem State.pushCommand_value (w : Word) (s : State) : (s.pushCommand w).value = s.value := rfl
@[simp] theorem State.pushCommand_record (w : Word) (s : State) (fmt : Nat) : (s.pushCommand w).record fmt = s.record fmt := rfl
@[simp] theorem beginCommand_base (c : Word) (s : State) : (beginCommand c s).base = s.base := rfl
@[simp] theorem beginCommand_len (c : Word) (s : State) : (beginCommand c s).len = s.len := rfl
@[simp] theorem beginCommand_value (c : Word) (s : State) : (beginCommand c s).value = s.value := rfl
@[simp] theorem beginCommand_record (c : Word) (s : State) (fmt : Nat) : (beginCommand c s).record fmt = s.record fmt := rfl
@[simp] theorem raiseError_base (e : ErrCode) (s : State) : (raiseError e s).base = s.base := rfl
@[simp] theorem raiseError_len (e : ErrCode) (s : State) : (raiseError e s).len = s.len := rfl
@[simp] theorem raiseError_value (e : ErrCode) (s : State) : (raiseError e s).value = s.value := rfl
@[simp] theorem raiseError_record (e : ErrCode) (s : State) (fmt : Nat) : (raiseError e s).record fmt = s.record fmt := rfl
@[simp] theorem freeOutcome_base (c : Word) (s : State) : (freeOutcome c s).base = s.base := rfl
@[simp] theorem freeOutcome_len (c : Word) (s : State) : (freeOutcome c s).len = s.len := rfl
@[simp] theorem freeOutcome_value (c : Word) (s : State) : (freeOutcome c s).value = s.value := rfl
@[simp] theorem freeOutcome_record (c : Word) (s : State) (fmt : Nat) : (freeOutcome c s).record fmt = s.record fmt := rfl
@[simp] theorem resetRegisters_record (s : State) (fmt : Nat) : (resetRegisters s).record fmt = s.record fmt := rfl

end Sys2Proof.Machine
end

