-- ==== Sys2Proof/Laws/Memory.lean ====
section
/-! SUPPORT. The laws of the memory M: a read after a write, and the canonical form. -/

namespace Sys2Proof.Machine.Memory

@[simp] theorem read_nil (a : Nat) : read [] a = unlisted a := rfl

theorem read_cons (k : Nat) (b : Byte) (m : Memory) (a : Nat) :
    read ((k, b) :: m) a = if k = a then b else read m a := rfl

theorem read_of_not_listed {m : Memory} {a : Nat} (h : ∀ c ∈ m, c.1 ≠ a) : read m a = unlisted a := by
  induction m with
  | nil => rfl
  | cons c m ih =>
    obtain ⟨k, b⟩ := c
    rw [read_cons, if_neg (h (k, b) (by simp))]
    exact ih fun c hc => h c (by simp [hc])

theorem read_filter_other (m : Memory) {a x : Nat} (h : x ≠ a) :
    read (m.filter fun c => decide (c.1 ≠ a)) x = read m x := by
  induction m with
  | nil => rfl
  | cons c m ih =>
    obtain ⟨k, b⟩ := c
    by_cases hk : k = a
    · subst hk; simp [read_cons, h.symm] at ih ⊢; exact ih
    · simp only [List.filter_cons, ne_eq, hk, not_false_eq_true, decide_true, if_true, read_cons]
      split
      · rfl
      · exact ih

theorem read_insertCell (m : Memory) (a : Nat) (b : Byte) (x : Nat) (h : ∀ c ∈ m, c.1 ≠ a) :
    read (insertCell a b m) x = if x = a then b else read m x := by
  induction m with
  | nil => simp only [insertCell, read_cons, read_nil, eq_comm]
  | cons c m ih =>
    obtain ⟨k, v⟩ := c
    have hk : k ≠ a := h (k, v) (by simp)
    have ih' := ih fun c hc => h c (by simp [hc])
    simp only [insertCell]
    split
    · simp only [read_cons, eq_comm]
    · rw [read_cons, ih', read_cons]
      by_cases hx : x = a
      · subst hx; simp [hk]
      · simp [hx]

/-- A read after a write: the value at the address written, the old value at every other address; for every list. -/
theorem read_write (m : Memory) (a : Nat) (v : Byte) (x : Nat) :
    read (write m a v) x = if x = a then v else read m x := by
  have hrest : ∀ c ∈ m.filter (fun c => decide (c.1 ≠ a)), c.1 ≠ a := by
    intro c hc; simpa using (List.mem_filter.mp hc).2
  unfold write
  by_cases hv : v = unlisted a
  · rw [if_pos hv]
    by_cases hx : x = a
    · subst hx; rw [if_pos rfl, read_of_not_listed hrest, hv]
    · rw [if_neg hx, read_filter_other m hx]
  · rw [if_neg hv, read_insertCell _ _ _ _ hrest]
    by_cases hx : x = a
    · simp [hx]
    · rw [if_neg hx, if_neg hx, read_filter_other m hx]

theorem mem_insertCell {m : Memory} {a : Nat} {b : Byte} {c : Host.Cell} :
    c ∈ insertCell a b m ↔ c = (a, b) ∨ c ∈ m := by
  induction m with
  | nil => simp [insertCell]
  | cons e m ih =>
    simp only [insertCell]
    split
    · simp
    · simp [ih, or_left_comm]

theorem insertCell_rising {m : Memory} {a : Nat} {b : Byte} (hm : m.Pairwise fun c d => c.1 < d.1)
    (h : ∀ c ∈ m, c.1 ≠ a) : (insertCell a b m).Pairwise fun c d => c.1 < d.1 := by
  induction m with
  | nil => simp [insertCell]
  | cons e m ih =>
    obtain ⟨k, v⟩ := e
    rw [List.pairwise_cons] at hm
    have hk : k ≠ a := h (k, v) (by simp)
    simp only [insertCell]
    split
    · rename_i hlt
      refine List.pairwise_cons.mpr ⟨?_, List.pairwise_cons.mpr hm⟩
      intro c hc
      rcases List.mem_cons.mp hc with rfl | hc
      · exact hlt
      · exact hlt.trans (hm.1 c hc)
    · rename_i hge
      refine List.pairwise_cons.mpr ⟨?_, ih hm.2 fun c hc => h c (by simp [hc])⟩
      intro c hc
      rcases mem_insertCell.mp hc with rfl | hc
      · exact lt_of_le_of_ne (not_lt.mp hge) hk
      · exact hm.1 c hc

/-- Every address a write leaves listed was listed, or is the address written. -/
theorem mem_write {m : Memory} {a : Nat} {v : Byte} {c : Host.Cell} (h : c ∈ write m a v) : c ∈ m ∨ c = (a, v) := by
  unfold write at h
  split at h
  · exact .inl (List.mem_of_mem_filter h)
  · rcases mem_insertCell.mp h with h | h
    · exact .inr h
    · exact .inl (List.mem_of_mem_filter h)

/-- A write keeps the canonical form. -/
theorem write_wf {m : Memory} (hm : wf m) (a : Nat) (v : Byte) : wf (write m a v) := by
  have hrest : ∀ c ∈ m.filter (fun c => decide (c.1 ≠ a)), c.1 ≠ a := by
    intro c hc; simpa using (List.mem_filter.mp hc).2
  have hsort := hm.1.filter (fun c => decide (c.1 ≠ a))
  unfold write
  split
  · exact ⟨hsort, fun c hc => hm.2 c (List.mem_of_mem_filter hc)⟩
  · rename_i hv
    refine ⟨insertCell_rising hsort hrest, fun c hc => ?_⟩
    rcases mem_insertCell.mp hc with rfl | hc
    · exact hv
    · exact hm.2 c (List.mem_of_mem_filter hc)

theorem read_writeBytes (bs : List Byte) (m : Memory) (a x : Nat) :
    read (writeBytes m a bs) x = if a ≤ x ∧ x < a + bs.length then bs.getD (x - a) 0 else read m x := by
  induction bs generalizing m a with
  | nil => simp [writeBytes]
  | cons b bs ih =>
    rw [writeBytes, ih, read_write]
    simp only [List.length_cons]
    by_cases hx : x = a
    · subst hx; simp
    · by_cases h1 : a + 1 ≤ x ∧ x < a + 1 + bs.length
      · rw [if_pos h1, if_pos ⟨by omega, by omega⟩]
        obtain ⟨k, hk⟩ : ∃ k, x - a = k + 1 := ⟨x - a - 1, by omega⟩
        rw [hk, List.getD_cons_succ]
        congr 1
        omega
      · rw [if_neg h1, if_neg hx, if_neg (by omega)]

theorem writeBytes_wf (bs : List Byte) {m : Memory} (hm : wf m) (a : Nat) : wf (writeBytes m a bs) := by
  induction bs generalizing m a with
  | nil => exact hm
  | cons b bs ih => exact ih (write_wf hm a b) (a + 1)

theorem mem_writeBytes (bs : List Byte) {m : Memory} {a : Nat} {c : Host.Cell} (h : c ∈ writeBytes m a bs) :
    c ∈ m ∨ (a ≤ c.1 ∧ c.1 < a + bs.length) := by
  induction bs generalizing m a with
  | nil => exact .inl h
  | cons b bs ih =>
    rcases ih h with h | h
    · rcases mem_write h with h | rfl
      · exact .inl h
      · exact .inr (by simp)
    · exact .inr (by simp only [List.length_cons]; omega)

theorem readBE_congr {m m' : Memory} {a a' n : Nat} (h : ∀ i < n, read m (a + i) = read m' (a' + i)) :
    readBE m a n = readBE m' a' n := by
  induction n with
  | zero => rfl
  | succ n ih => rw [readBE, readBE, ih fun i hi => h i (by omega), h n (by omega)]

theorem readBE_lt (m : Memory) (a n : Nat) : readBE m a n < 256 ^ n := by
  induction n with
  | zero => simp [readBE]
  | succ n ih =>
    have := (read m (a + n)).isLt
    rw [readBE, pow_succ]
    omega

end Sys2Proof.Machine.Memory
end

