-- ==== Sys2Proof/Laws/Window.lean ====
section
/-! SUPPORT. Windows and fields as header bits (00_scope.md R8): what ReadWindow, WriteWindow, Extract and Insert do, bit by bit. -/

namespace Sys2Proof.Machine

/-- Header bit `b` of the buffer at `base`, MSB-first (00_scope.md R8). -/
def headerBit (m : Memory) (base b : Nat) : Bool := (Memory.read m (base + b / 8)).getLsbD (7 - b % 8)

theorem testBit_mul256_add (x y k : Nat) (hy : y < 256) :
    (256 * x + y).testBit k = if k < 8 then y.testBit k else x.testBit (k - 8) := by
  have h : 256 * x + y = 2 ^ 8 * x + y := by omega
  rw [h]
  exact Nat.testBit_two_pow_mul_add x hy k

theorem readBE_testBit (m : Memory) (a n k : Nat) :
    (Memory.readBE m a n).testBit k =
      (decide (k < 8 * n) && (Memory.read m (a + (n - 1 - k / 8))).getLsbD (k % 8)) := by
  induction n generalizing k with
  | zero => simp [Memory.readBE]
  | succ n ih =>
    have hlt := (Memory.read m (a + n)).isLt
    rw [Memory.readBE, testBit_mul256_add _ _ _ (by simpa using hlt)]
    by_cases hk : k < 8
    · have h1 : k / 8 = 0 := by omega
      have h2 : k % 8 = k := by omega
      have h3 : k < 8 * (n + 1) := by omega
      simp [hk, h1, h2, h3, BitVec.getLsbD]
    · rw [if_neg hk, ih]
      have h1 : (k - 8) % 8 = k % 8 := by omega
      have h2 : n - 1 - (k - 8) / 8 = n + 1 - 1 - k / 8 := by omega
      have h3 : (k - 8 < 8 * n) ↔ (k < 8 * (n + 1)) := by omega
      rw [h1, h2, decide_eq_decide.mpr h3]

@[simp] theorem bytesBE_length (n W : Nat) : (bytesBE n W).length = n := by simp [bytesBE]

theorem bytesBE_getD (n W i k : Nat) (hi : i < n) :
    ((bytesBE n W).getD i 0).getLsbD k = (decide (k < 8) && W.testBit (8 * (n - 1 - i) + k)) := by
  have h : (bytesBE n W).getD i 0 = BitVec.ofNat 8 (W >>> (8 * (n - 1 - i)) &&& 0xFF) := by
    simp [bytesBE, List.getD_eq_getElem?_getD, hi]
  rw [h, BitVec.getLsbD_ofNat, Nat.testBit_and, Nat.testBit_shiftRight, show (0xFF : Nat) = 2 ^ 8 - 1 from rfl,
    Nat.testBit_two_pow_sub_one]
  cases decide (k < 8) <;> simp

/-- ReadWindow, bit by bit: bit `k` is header bit `32*q + WB - 1 - k`. -/
theorem readWindow_testBit (m : Memory) (base : Nat) (d : Desc) (k : Nat) (hk : k < windowBits d.w) :
    (readWindow m base d).testBit k = headerBit m base (32 * d.q + (windowBits d.w - 1 - k)) := by
  have hw : windowBits d.w = 8 * d.windowBytes := by simp [windowBits, Desc.windowBytes]; omega
  unfold readWindow headerBit
  rw [readBE_testBit, hw]
  rw [hw] at hk
  have h1 : base + d.firstByte + (d.windowBytes - 1 - k / 8) =
      base + (32 * d.q + (8 * d.windowBytes - 1 - k)) / 8 := by unfold Desc.firstByte; omega
  have h2 : 7 - (32 * d.q + (8 * d.windowBytes - 1 - k)) % 8 = k % 8 := by omega
  simp [hk, h1, h2]

theorem readWindow_lt (m : Memory) (base : Nat) (d : Desc) : readWindow m base d < 2 ^ windowBits d.w := by
  have h := Memory.readBE_lt m (base + d.firstByte) d.windowBytes
  have hw : 256 ^ d.windowBytes = 2 ^ windowBits d.w := by
    rw [show (256 : Nat) = 2 ^ 8 from rfl, ← pow_mul]; congr 1; simp [windowBits, Desc.windowBytes]; omega
  rwa [hw] at h

/-- The window is written back byte for byte; everything else is left. -/
theorem read_writeWindow (m : Memory) (base : Nat) (d : Desc) (W x : Nat) :
    Memory.read (writeWindow m base d W) x =
      if base + d.firstByte ≤ x ∧ x < base + d.firstByte + d.windowBytes
      then (bytesBE d.windowBytes W).getD (x - (base + d.firstByte)) 0 else Memory.read m x := by
  rw [writeWindow, Memory.read_writeBytes, bytesBE_length]

/-- WriteWindow, bit by bit. -/
theorem headerBit_writeWindow (m : Memory) (base : Nat) (d : Desc) (W b : Nat) :
    headerBit (writeWindow m base d W) base b =
      if 32 * d.q ≤ b ∧ b < 32 * d.q + windowBits d.w then W.testBit (32 * d.q + windowBits d.w - 1 - b)
      else headerBit m base b := by
  have hw : windowBits d.w = 8 * d.windowBytes := by simp [windowBits, Desc.windowBytes]; omega
  unfold headerBit
  rw [read_writeWindow, hw]
  unfold Desc.firstByte
  by_cases hb : 32 * d.q ≤ b ∧ b < 32 * d.q + 8 * d.windowBytes
  · rw [if_pos (by omega), if_pos hb, bytesBE_getD _ _ _ _ (by omega)]
    have h : 8 * (d.windowBytes - 1 - (base + b / 8 - (base + 4 * d.q))) + (7 - b % 8) =
        32 * d.q + 8 * d.windowBytes - 1 - b := by omega
    rw [h]
    simp only [show 7 - b % 8 < 8 by omega, decide_true, Bool.true_and]
  · rw [if_neg (by omega), if_neg hb]

/-- `wf(d)` as inequalities (10_state.md R37). -/
theorem Desc_wf_iff (d : Desc) :
    d.wf = true ↔ 1 ≤ d.w ∧ d.w ≤ 64 ∧ d.o ≤ 31 ∧ d.o + d.w ≤ windowBits d.w := by
  simp [Desc.wf, and_assoc]

/-- Extract, bit by bit (40_field_access.md R101). -/
theorem extract_testBit (m : Memory) (base : Nat) (d : Desc) (hd : d.o + d.w ≤ windowBits d.w) (k : Nat) :
    (extract m base d).testBit k = (decide (k < d.w) && headerBit m base (d.firstBit + (d.w - 1 - k))) := by
  unfold extract mask
  rw [Nat.testBit_and, Nat.testBit_shiftRight, Nat.testBit_two_pow_sub_one]
  by_cases hk : k < d.w
  · have hb : 32 * d.q + (windowBits d.w - 1 - (d.shift + k)) = d.firstBit + (d.w - 1 - k) := by
      simp only [Desc.shift, Desc.firstBit]; omega
    rw [readWindow_testBit _ _ _ _ (by simp only [Desc.shift]; omega), hb]
    simp [hk]
  · simp [hk]

theorem extract_lt (m : Memory) (base : Nat) (d : Desc) : extract m base d < 2 ^ d.w := by
  unfold extract mask
  exact Nat.lt_of_le_of_lt Nat.and_le_right (by have := Nat.two_pow_pos d.w; omega)

theorem testBit_mask_shift (w s k : Nat) : (mask w <<< s).testBit k = (decide (s ≤ k) && decide (k - s < w)) := by
  simp [mask, Nat.testBit_shiftLeft, Nat.testBit_two_pow_sub_one]

theorem mask_shift_lt (d : Desc) (hd : d.o + d.w ≤ windowBits d.w) : mask d.w <<< d.shift < 2 ^ windowBits d.w := by
  apply Nat.lt_pow_two_of_testBit
  intro k hk
  have h : ¬(d.shift ≤ k ∧ k - d.shift < d.w) := by unfold Desc.shift; omega
  rw [testBit_mask_shift]
  simpa using h

/-- `~_N a`, bit by bit (00_scope.md R9). -/
theorem testBit_complement (n a k : Nat) (ha : a < 2 ^ n) :
    (2 ^ n - 1 - a).testBit k = (decide (k < n) && !a.testBit k) := by
  have h : 2 ^ n - 1 - a = 2 ^ n - (a + 1) := by omega
  rw [h, Nat.testBit_two_pow_sub_succ ha]

/-- Insert, bit by bit (40_field_access.md R102): the field's header bits take the low bits of `v`, most significant first;
every other header bit is left. -/
theorem headerBit_insertField (m : Memory) (base : Nat) (d : Desc) (v b : Nat) (hd : d.o + d.w ≤ windowBits d.w) :
    headerBit (insertField m base d v) base b =
      if d.firstBit ≤ b ∧ b < d.firstBit + d.w then v.testBit (d.w - 1 - (b - d.firstBit)) else headerBit m base b := by
  unfold insertField
  rw [headerBit_writeWindow]
  by_cases hb : 32 * d.q ≤ b ∧ b < 32 * d.q + windowBits d.w
  · have hk : 32 * d.q + windowBits d.w - 1 - b < windowBits d.w := by omega
    rw [if_pos hb, Nat.testBit_or, Nat.testBit_and, Nat.testBit_and, testBit_complement _ _ _ (mask_shift_lt d hd),
      testBit_mask_shift, readWindow_testBit _ _ _ _ hk, Nat.testBit_shiftLeft]
    have hb' : 32 * d.q + (windowBits d.w - 1 - (32 * d.q + windowBits d.w - 1 - b)) = b := by omega
    rw [hb']
    by_cases hf : d.firstBit ≤ b ∧ b < d.firstBit + d.w
    · rw [if_pos hf]
      simp only [Desc.firstBit, Desc.shift] at *
      have h1 : windowBits d.w - d.o - d.w ≤ 32 * d.q + windowBits d.w - 1 - b := by omega
      have h2 : 32 * d.q + windowBits d.w - 1 - b - (windowBits d.w - d.o - d.w) < d.w := by omega
      have h3 : 32 * d.q + windowBits d.w - 1 - b - (windowBits d.w - d.o - d.w) = d.w - 1 - (b - (32 * d.q + d.o)) := by
        omega
      simp only [h1, h2, decide_true, Bool.and_self, Bool.not_true, Bool.and_false, Bool.false_or, Bool.and_true, Bool.true_and, ← h3]
    · rw [if_neg hf]
      simp only [Desc.firstBit, Desc.shift] at *
      have h2 : ¬(windowBits d.w - d.o - d.w ≤ 32 * d.q + windowBits d.w - 1 - b ∧
          32 * d.q + windowBits d.w - 1 - b - (windowBits d.w - d.o - d.w) < d.w) := by omega
      by_cases h : windowBits d.w - d.o - d.w ≤ 32 * d.q + windowBits d.w - 1 - b
      · have h' : ¬ 32 * d.q + windowBits d.w - 1 - b - (windowBits d.w - d.o - d.w) < d.w := fun hh => h2 ⟨h, hh⟩
        simp [h', hk]
      · simp [h, hk]
  · rw [if_neg hb, if_neg]
    simp only [Desc.firstBit]
    omega

/-- Insert changes no byte outside the window (20_memory.md R69). -/
theorem read_insertField_outside (m : Memory) (base : Nat) (d : Desc) (v x : Nat)
    (hx : ¬(base + d.firstByte ≤ x ∧ x < base + d.firstByte + d.windowBytes)) :
    Memory.read (insertField m base d v) x = Memory.read m x := by
  unfold insertField
  rw [read_writeWindow, if_neg hx]

theorem insertField_wf {m : Memory} (hm : Memory.wf m) (base : Nat) (d : Desc) (v : Nat) :
    Memory.wf (insertField m base d v) := Memory.writeBytes_wf _ hm _

theorem mem_insertField {m : Memory} {base : Nat} {d : Desc} {v : Nat} {c : Host.Cell}
    (h : c ∈ insertField m base d v) :
    c ∈ m ∨ (base + d.firstByte ≤ c.1 ∧ c.1 < base + d.firstByte + d.windowBytes) := by
  simpa using Memory.mem_writeBytes _ h

end Sys2Proof.Machine
end

