-- ==== Sys2Proof/Laws/Run.lean ====
section
/-! SUPPORT. What a command's run can do: the inversion lemmas of runCommand, of the checks and of exec, which proofs cite instead
of unfolding the meanings. -/

namespace Sys2Proof.Machine

/-! ## Except -/

theorem bind_ok {α β : Type} (a : α) (f : α → Except Stop β) : ((Except.ok a : Except Stop α) >>= f) = f a := rfl

theorem bind_error {α β : Type} (e : Stop) (f : α → Except Stop β) :
    ((Except.error e : Except Stop α) >>= f) = .error e := rfl

theorem bind_eq_ok {α β : Type} {x : Except Stop α} {f : α → Except Stop β} {b : β} :
    (x >>= f) = .ok b ↔ ∃ a, x = .ok a ∧ f a = .ok b := by
  cases x with
  | ok a => simp [bind_ok]
  | error e => simp [bind_error]

theorem bind_eq_error {α β : Type} {x : Except Stop α} {f : α → Except Stop β} {e : Stop} :
    (x >>= f) = .error e ↔ x = .error e ∨ ∃ a, x = .ok a ∧ f a = .error e := by
  cases x with
  | ok a => simp [bind_ok]
  | error e' => simp [bind_error]

/-! ## The checks -/

theorem require_eq_ok {b : Bool} {e : ErrCode} {u : Unit} : require b e = .ok u ↔ b = true := by
  cases b <;> simp [require]

theorem require_eq_error {b : Bool} {e : ErrCode} {st : Stop} :
    require b e = .error st ↔ b = false ∧ st = .raised e := by
  cases b <;> simp [require, eq_comm]

theorem baseOk_iff {s : State} : baseOk s = true ↔ (s.cfg.nullBaseCheck = true → s.base ≠ 0) := by
  cases h : s.cfg.nullBaseCheck <;> simp [baseOk, h]

theorem viewFits_iff {s : State} : viewFits s = true ↔ s.base + s.len ≤ 2 ^ s.cfg.aw := by simp [viewFits]

theorem inBounds_iff {s : State} {d : Desc} : inBounds s d = true ↔ d.firstByte + d.windowBytes ≤ s.len := by
  simp [inBounds]

theorem checkView_eq_ok {s : State} {u : Unit} : checkView s = .ok u ↔ baseOk s = true ∧ viewFits s = true := by
  simp [checkView, bind_eq_ok, require_eq_ok]

theorem checkView_eq_error {s : State} {st : Stop} :
    checkView s = .error st ↔
      (baseOk s = false ∧ st = .raised .nullBase) ∨ (baseOk s = true ∧ viewFits s = false ∧ st = .raised .view) := by
  simp [checkView, bind_eq_error, require_eq_ok, require_eq_error]

theorem checkBounds_eq_ok {s : State} {d : Desc} {u : Unit} : checkBounds s d = .ok u ↔ inBounds s d = true :=
  require_eq_ok

theorem checkPlain_eq_ok {s : State} {u : Unit} : checkPlain s = .ok u ↔ viewPlain s = true := by
  cases h : viewPlain s <;> simp [checkPlain, h]

theorem findFormat_eq_ok {s : State} {fmt : Nat} {F : Format} : findFormat s fmt = .ok F ↔ s.record fmt = some F := by
  unfold findFormat; split <;> simp_all

theorem findField_eq_ok {F : Format} {fid : Nat} {d : Desc} : findField F fid = .ok d ↔ F.fields[fid]? = some d := by
  unfold findField; split <;> simp_all

theorem resolve_eq_ok {s : State} {fmt fid : Nat} {d : Desc} :
    resolve s fmt fid = .ok d ↔ ∃ F, s.record fmt = some F ∧ F.fields[fid]? = some d := by
  simp [resolve, bind_eq_ok, findFormat_eq_ok, findField_eq_ok]

theorem checkDesc_eq_ok {d : Desc} {u : Unit} :
    checkDesc d = .ok u ↔ 1 ≤ d.w ∧ d.w ≤ 64 ∧ d.o + d.w ≤ windowBits d.w := by
  simp [checkDesc, require_eq_ok, and_assoc]

/-! ## The two ends of a field command -/

/-- The checks of the view all pass for the window of `d`. -/
def ViewPasses (s : State) (d : Desc) : Prop :=
  baseOk s = true ∧ viewFits s = true ∧ inBounds s d = true ∧ viewPlain s = true

theorem readField_eq_ok {d : Desc} {s t : State} :
    readField d s = .ok t ↔ ViewPasses s d ∧ t = s.setResult (s.fieldValue d) := by
  simp only [readField, bind_eq_ok, checkView_eq_ok, checkBounds_eq_ok, checkPlain_eq_ok, ViewPasses, pure, Except.pure,
    Except.ok.injEq, exists_const, eq_comm (b := t), and_assoc]

theorem writeField_eq_ok {d : Desc} {s t : State} :
    writeField d s = .ok t ↔ ViewPasses s d ∧ t = s.insert d s.value := by
  simp only [writeField, bind_eq_ok, checkView_eq_ok, checkBounds_eq_ok, checkPlain_eq_ok, ViewPasses, pure, Except.pure,
    Except.ok.injEq, exists_const, eq_comm (b := t), and_assoc]

/-! ## Commands -/

/-- The rule of a command: what runs after CMD is written and STATUS cleared. -/
def ruleOf : Instr → State → Except Stop State
  | .nop, t => .ok t
  | .get fmt fid, t => do readField (← resolve t fmt fid) t
  | .set fmt fid, t => do writeField (← resolve t fmt fid) t
  | .init fmt, t => do
    let F ← findFormat t fmt
    checkView t
    require (decide (F.hlen ≤ t.len)) .bounds
    checkPlain t
    pure (t.setMem (initHeader t.mem t.base F))
  | .isvalid fmt, t => do
    let F ← findFormat t fmt
    checkView t
    checkPlain t
    pure (if verdict t F then t.setStatus Status.accepted else t)
  | .getd q o w, t => do checkDesc ⟨q, o, w⟩; readField ⟨q, o, w⟩ t
  | .setd q o w, t => do checkDesc ⟨q, o, w⟩; writeField ⟨q, o, w⟩ t

/-- Every arm of exec is its command's rule in the frame of Execute. -/
theorem exec_eq (i : Instr) (s : State) : exec i s = runCommand (encode i) (ruleOf i) s := by
  cases i <;> rfl

/-- runCommand answers a next state in two ways only. -/
theorem runCommand_eq_next {c : Word} {body : State → Except Stop State} {s t : State} :
    runCommand c body s = .next t ↔
      s.cfg.wf = true ∧ (body (beginCommand c s) = .ok t ∨
        ∃ e, body (beginCommand c s) = .error (.raised e) ∧ t = raiseError e (beginCommand c s)) := by
  unfold runCommand
  by_cases hc : s.cfg.wf = true
  · rw [if_pos hc]
    split
    · rename_i u hu
      simp [hc, hu, eq_comm]
    · rename_i e he
      simp [hc, he, eq_comm]
    · rename_i r hr
      simp [hc, hr]
  · rw [if_neg hc]
    simp [hc]

theorem runCommand_of_ok {c : Word} {body : State → Except Stop State} {s t : State} (hc : s.cfg.wf = true)
    (h : body (beginCommand c s) = .ok t) : runCommand c body s = .next t :=
  runCommand_eq_next.mpr ⟨hc, .inl h⟩

theorem runCommand_of_raised {c : Word} {body : State → Except Stop State} {s : State} {e : ErrCode}
    (hc : s.cfg.wf = true) (h : body (beginCommand c s) = .error (.raised e)) :
    runCommand c body s = .next (raiseError e (beginCommand c s)) :=
  runCommand_eq_next.mpr ⟨hc, .inr ⟨e, h, rfl⟩⟩

/-- A command's rule ends well in five ways, and these are all its effects. -/
theorem ruleOf_eq_ok {i : Instr} {s t : State} (h : ruleOf i s = .ok t) :
    (t = s ∧ (i = .nop ∨ ∃ fmt F, i = .isvalid fmt ∧ s.record fmt = some F ∧ verdict s F = false)) ∨
    (∃ fmt F, i = .isvalid fmt ∧ s.record fmt = some F ∧ verdict s F = true ∧ t = s.setStatus Status.accepted) ∨
    (∃ d, ViewPasses s d ∧ t = s.setResult (s.fieldValue d) ∧
      ((∃ fmt fid F, i = .get fmt fid ∧ s.record fmt = some F ∧ F.fields[fid]? = some d) ∨
        (i = .getd d.q d.o d.w ∧ 1 ≤ d.w ∧ d.w ≤ 64 ∧ d.o + d.w ≤ windowBits d.w))) ∨
    (∃ d, ViewPasses s d ∧ t = s.insert d s.value ∧
      ((∃ fmt fid F, i = .set fmt fid ∧ s.record fmt = some F ∧ F.fields[fid]? = some d) ∨
        (i = .setd d.q d.o d.w ∧ 1 ≤ d.w ∧ d.w ≤ 64 ∧ d.o + d.w ≤ windowBits d.w))) ∨
    (∃ fmt F, i = .init fmt ∧ s.record fmt = some F ∧ F.hlen ≤ s.len ∧ baseOk s = true ∧ viewFits s = true ∧
      t = s.setMem (initHeader s.mem s.base F)) := by
  cases i with
  | nop =>
    simp only [ruleOf, Except.ok.injEq] at h
    exact .inl ⟨h.symm, .inl rfl⟩
  | get fmt fid =>
    simp only [ruleOf, bind_eq_ok, resolve_eq_ok, readField_eq_ok] at h
    obtain ⟨d, ⟨F, hF, hd⟩, hv, rfl⟩ := h
    exact .inr (.inr (.inl ⟨d, hv, rfl, .inl ⟨fmt, fid, F, rfl, hF, hd⟩⟩))
  | set fmt fid =>
    simp only [ruleOf, bind_eq_ok, resolve_eq_ok, writeField_eq_ok] at h
    obtain ⟨d, ⟨F, hF, hd⟩, hv, rfl⟩ := h
    exact .inr (.inr (.inr (.inl ⟨d, hv, rfl, .inl ⟨fmt, fid, F, rfl, hF, hd⟩⟩)))
  | init fmt =>
    simp only [ruleOf, bind_eq_ok, findFormat_eq_ok, checkView_eq_ok, require_eq_ok, checkPlain_eq_ok, pure,
      Except.pure, Except.ok.injEq, exists_const, decide_eq_true_eq] at h
    obtain ⟨F, hF, ⟨hb, hv⟩, hl, -, rfl⟩ := h
    exact .inr (.inr (.inr (.inr ⟨fmt, F, rfl, hF, hl, hb, hv, rfl⟩)))
  | isvalid fmt =>
    simp only [ruleOf, bind_eq_ok, findFormat_eq_ok, checkView_eq_ok, checkPlain_eq_ok, pure, Except.pure,
      Except.ok.injEq, exists_const] at h
    obtain ⟨F, hF, -, -, rfl⟩ := h
    cases hv : verdict s F with
    | true => exact .inr (.inl ⟨fmt, F, rfl, hF, hv, by simp⟩)
    | false => exact .inl ⟨by simp, .inr ⟨fmt, F, rfl, hF, hv⟩⟩
  | getd q o w =>
    simp only [ruleOf, bind_eq_ok, checkDesc_eq_ok, readField_eq_ok, exists_const] at h
    exact .inr (.inr (.inl ⟨⟨q, o, w⟩, h.2.1, h.2.2, .inr ⟨rfl, h.1⟩⟩))
  | setd q o w =>
    simp only [ruleOf, bind_eq_ok, checkDesc_eq_ok, writeField_eq_ok, exists_const] at h
    exact .inr (.inr (.inr (.inl ⟨⟨q, o, w⟩, h.2.1, h.2.2, .inr ⟨rfl, h.1⟩⟩)))

end Sys2Proof.Machine
end

