-- ==== Sys2Proof/Laws/Bus.lean ====
section
/-! SUPPORT. What one step does: the step takes one bus operation, and a CMD write runs one command word. -/

namespace Sys2Proof.Machine

theorem step_cons {s : State} {op : BusOp} {rest : List BusOp} (hc : s.cfg.wf = true) (h : s.inbox = op :: rest) :
    step s = runBusOp op { s with inbox := rest } := by
  simp [step, busStep, hc, h]

theorem step_idle {s : State} (hc : s.cfg.wf = true) (h : s.inbox = []) : step s = .next s := by
  simp [step, busStep, hc, h]

theorem step_illFormed {s : State} (hc : s.cfg.wf = false) : step s = .refused .illFormedConfig := by
  simp [step, busStep, hc]

theorem exec_illFormed {s : State} (hc : s.cfg.wf = false) (i : Instr) : exec i s = .refused .illFormedConfig := by
  rw [exec_eq]; simp [runCommand, hc]

/-- A step that answers a next state had a configuration with a semantics. -/
theorem cfg_of_step {s t : State} (h : step s = .next t) : s.cfg.wf = true := by
  cases hc : s.cfg.wf with
  | true => rfl
  | false => rw [step_illFormed hc] at h; cases h

theorem cfg_of_exec {i : Instr} {s t : State} (h : exec i s = .next t) : s.cfg.wf = true := by
  rw [exec_eq] at h; exact (runCommand_eq_next.mp h).1

theorem step_cmd {s : State} {c : Word} {rest : List BusOp} (hc : s.cfg.wf = true)
    (h : s.inbox = .regWrite 0x08 .word c :: rest) : step s = executeWord c { s with inbox := rest } := by
  rw [step_cons hc h]; rfl

/-- The rule a command word runs: its command's, or the error its decoding raises. -/
def wordRule (c : Word) : State → Except Stop State :=
  match decodeWord c with
  | .ok i => ruleOf i
  | .error e => fun _ => .error (.raised (DecodeError.errCode e))

/-- A word that does not decode ends in an error. -/
theorem wordRule_ok {c : Word} {s t : State} (h : wordRule c s = .ok t) : ∃ i, decodeWord c = .ok i ∧ ruleOf i s = .ok t := by
  cases hd : decodeWord c with
  | ok i => exact ⟨i, rfl, by simpa [wordRule, hd] using h⟩
  | error e => simp [wordRule, hd] at h

/-- The addresses of a window (10_state.md R36). -/
theorem mem_windowAddrs {s : State} {d : Desc} {a : Nat} :
    a ∈ windowAddrs s d ↔ s.base + d.firstByte ≤ a ∧ a < s.base + d.firstByte + d.windowBytes := by
  simp only [windowAddrs, List.mem_map, List.mem_range]
  constructor
  · rintro ⟨i, hi, rfl⟩; omega
  · intro h; exact ⟨a - (s.base + d.firstByte), by omega, by omega⟩

/-- The addresses of a header (10_state.md R40). -/
theorem mem_headerAddrs {s : State} {F : Format} {a : Nat} :
    a ∈ (List.range F.hlen).map (fun i => s.base + i) ↔ s.base ≤ a ∧ a < s.base + F.hlen := by
  simp only [List.mem_map, List.mem_range]
  constructor
  · rintro ⟨i, hi, rfl⟩; omega
  · intro h; exact ⟨a - s.base, by omega, by omega⟩

/-- The fields ISVALID may read are rows of the table (10_state.md R38 (e), (f)). -/
theorem lt_of_mem_validityFields {F : Format} (hF : F.wf = true) {fid : Nat} (h : fid ∈ validityFields F) :
    fid < F.fields.length := by
  obtain ⟨-, -, -, -, -, -, hl, hch⟩ := Format.wf_iff.mp hF
  simp only [validityFields, List.mem_append, List.mem_flatMap] at h
  rcases h with h | ⟨ch, hc, h⟩
  · split at h
    · simp at h
    · rename_i r hr
      obtain rfl : fid = r.fid := by simpa using h
      exact hl r hr
  · have hk := hch ch hc
    cases ch with
    | eqConst f k =>
      obtain rfl : fid = f := by simpa [checkedFields] using h
      exact (Format.lt_of_fits hk).1
    | inRange f lo hi =>
      obtain rfl : fid = f := by simpa [checkedFields] using h
      simp only [Format.checkOk, Bool.and_eq_true] at hk
      exact (Format.lt_of_fits hk.2).1
    | exclusive a b =>
      simp only [Format.checkOk, Bool.and_eq_true, decide_eq_true_eq] at hk
      rcases (by simpa [checkedFields] using h : fid = a ∨ fid = b) with rfl | rfl
      · exact hk.1.1
      · exact hk.1.2

/-- Scramble changes M and the counter only. -/
theorem scramble_eq (l : List Nat) (s : State) : ∃ m n, scramble l s = { s with mem := m, fresh := n } := by
  induction l generalizing s with
  | nil => exact ⟨s.mem, s.fresh, rfl⟩
  | cons a l ih =>
    obtain ⟨m, n, h⟩ := ih { s with mem := Memory.write s.mem a (Config.freeByte s.fresh), fresh := s.fresh + 1 }
    exact ⟨m, n, h⟩

theorem read_scramble_other {l : List Nat} {a : Nat} (ha : a ∉ l) (s : State) :
    Memory.read (scramble l s).mem a = Memory.read s.mem a := by
  induction l generalizing s with
  | nil => rfl
  | cons x l ih =>
    simp only [List.mem_cons, not_or] at ha
    refine (ih ha.2 _).trans ?_
    show Memory.read (Memory.write _ _ _) _ = _
    rw [Memory.read_write, if_neg ha.1]

theorem read_scramble_listed {l : List Nat} {a : Nat} (ha : a ∈ l) (s : State) :
    ∃ n, Memory.read (scramble l s).mem a = Config.freeByte n := by
  induction l generalizing s with
  | nil => simp at ha
  | cons x l ih =>
    by_cases hl : a ∈ l
    · exact ih hl _
    · obtain rfl : a = x := by simpa [hl] using ha
      refine ⟨s.fresh, (read_scramble_other hl _).trans ?_⟩
      show Memory.read (Memory.write _ _ _) _ = _
      rw [Memory.read_write, if_pos rfl]

theorem scramble_wf {l : List Nat} {s : State} (h : Memory.wf s.mem) : Memory.wf (scramble l s).mem := by
  induction l generalizing s with
  | nil => exact h
  | cons a l ih => exact ih (Memory.write_wf h _ _)

theorem mem_scramble {l : List Nat} {s : State} {c : Host.Cell} (h : c ∈ (scramble l s).mem) : c ∈ s.mem ∨ c.1 ∈ l := by
  induction l generalizing s with
  | nil => exact .inl h
  | cons a l ih =>
    rcases ih h with h | h
    · rcases Memory.mem_write h with h | rfl
      · exact .inl h
      · exact .inr (by simp)
    · exact .inr (by simp [h])

/-- A host access of M that answers a next state was of an address that exists. -/
theorem hostAccess_eq_next {s t go : State} {a : Nat} (h : hostAccess s a go = .next t) : a < 2 ^ s.cfg.aw ∧ t = go := by
  unfold hostAccess at h
  split at h
  · cases h
  · split at h
    · cases h
    · split at h <;> cases h
      exact ⟨by omega, rfl⟩

/-- The fields of a word, as the arithmetic of its value. -/
theorem bitField_lt (c : Word) (hi lo : Nat) : bitField c hi lo < 2 ^ (hi + 1 - lo) :=
  Nat.mod_lt _ (Nat.two_pow_pos _)

end Sys2Proof.Machine
end

