-- ==== Sys2Proof/Laws/Format.lean ====
section
/-! SUPPORT. What INIT's header is, field by field and byte by byte (41_format_ops.md R140), and that a window's value depends on
its own bytes only (20_memory.md R69). -/

namespace Sys2Proof.Machine

/-- ReadWindow reads the bytes of the window and no others. -/
theorem readWindow_congr {m m' : Memory} {base : Nat} {d : Desc}
    (h : ∀ a, base + d.firstByte ≤ a → a < base + d.firstByte + d.windowBytes → Memory.read m a = Memory.read m' a) :
    readWindow m base d = readWindow m' base d :=
  Memory.readBE_congr fun i hi => h _ (by omega) (by omega)

/-- Insert's effect on a byte depends on the window's bytes and on that byte only. -/
theorem read_insertField_congr {m m' : Memory} {base : Nat} {d : Desc} (v : Nat)
    (hw : readWindow m base d = readWindow m' base d) {a : Nat} (ha : Memory.read m a = Memory.read m' a) :
    Memory.read (insertField m base d v) a = Memory.read (insertField m' base d v) a := by
  unfold insertField
  rw [hw]
  simp only [read_writeWindow]
  split
  · rfl
  · exact ha

/-- The row of a stamp lies inside the header (10_state.md R38 (b), (d)). -/
theorem stamp_row {F : Format} (hF : F.wf = true) {st : Stamp} (hs : F.fits st.fid st.k = true) :
    (Format.row F st.fid).wf = true ∧ (Format.row F st.fid).firstByte + (Format.row F st.fid).windowBytes ≤ F.hlen := by
  have h := Format.row_wf hF (Format.getElem?_row (Format.lt_of_fits hs).1)
  refine ⟨h.1, ?_⟩
  have := h.2
  unfold Desc.firstByte Desc.windowBytes Format.hlen
  omega

theorem applyStamps_eq_foldl (F : Format) (base : Nat) (l : List Stamp) (m : Memory) :
    applyStamps F base l m = l.foldl (fun m st => insertField m base (Format.row F st.fid) st.k) m := by
  induction l generalizing m with
  | nil => rfl
  | cons st l ih => exact ih _

theorem read_applyStamps_outside {F : Format} (hF : F.wf = true) {l : List Stamp}
    (hl : ∀ st ∈ l, F.fits st.fid st.k = true) {base a : Nat} (ha : ¬(base ≤ a ∧ a < base + F.hlen)) (m : Memory) :
    Memory.read (applyStamps F base l m) a = Memory.read m a := by
  induction l generalizing m with
  | nil => rfl
  | cons st l ih =>
    refine (ih (fun x hx => hl x (by simp [hx])) _).trans (read_insertField_outside _ _ _ _ _ ?_)
    have := (stamp_row hF (hl st (by simp))).2
    omega

/-- INIT changes no byte outside the header (20_memory.md R69). -/
theorem read_initHeader_outside {F : Format} (hF : F.wf = true) {base a : Nat}
    (ha : ¬(base ≤ a ∧ a < base + F.hlen)) (m : Memory) : Memory.read (initHeader m base F) a = Memory.read m a := by
  unfold initHeader zeroHeader
  rw [read_applyStamps_outside hF (Format.wf_iff.mp hF).2.2.2.2.2.1 ha, Memory.read_writeBytes, if_neg (by simpa using ha)]

theorem read_applyStamps_inside {F : Format} (hF : F.wf = true) {l : List Stamp}
    (hl : ∀ st ∈ l, F.fits st.fid st.k = true) {base : Nat} {m m' : Memory}
    (h : ∀ a, base ≤ a ∧ a < base + F.hlen → Memory.read m a = Memory.read m' a) {a : Nat}
    (ha : base ≤ a ∧ a < base + F.hlen) :
    Memory.read (applyStamps F base l m) a = Memory.read (applyStamps F base l m') a := by
  induction l generalizing m m' with
  | nil => exact h a ha
  | cons st l ih =>
    refine ih (fun x hx => hl x (by simp [hx])) fun a ha => read_insertField_congr _ ?_ (h a ha)
    have := (stamp_row hF (hl st (by simp))).2
    exact readWindow_congr fun b h1 h2 => h b (by omega)

/-- The header INIT leaves does not depend on what M held before. -/
theorem read_initHeader_inside {F : Format} (hF : F.wf = true) {base a : Nat} (ha : base ≤ a ∧ a < base + F.hlen)
    (m m' : Memory) : Memory.read (initHeader m base F) a = Memory.read (initHeader m' base F) a := by
  refine read_applyStamps_inside hF (Format.wf_iff.mp hF).2.2.2.2.2.1 (fun a ha => ?_) ha
  unfold zeroHeader
  rw [Memory.read_writeBytes, Memory.read_writeBytes, if_pos (by simpa using ha), if_pos (by simpa using ha)]

theorem initHeader_wf {m : Memory} (hm : Memory.wf m) (base : Nat) (F : Format) : Memory.wf (initHeader m base F) := by
  unfold initHeader
  have h : Memory.wf (zeroHeader m base F) := Memory.writeBytes_wf _ hm _
  revert h
  generalize zeroHeader m base F = m'
  generalize F.stamps = l
  intro h
  induction l generalizing m' with
  | nil => exact h
  | cons st l ih => exact ih _ (insertField_wf h _ _ _)

theorem mem_initHeader {F : Format} (hF : F.wf = true) {m : Memory} {base : Nat} {c : Host.Cell}
    (h : c ∈ initHeader m base F) : c ∈ m ∨ (base ≤ c.1 ∧ c.1 < base + F.hlen) := by
  have key : ∀ (l : List Stamp) (m' : Memory), (∀ st ∈ l, F.fits st.fid st.k = true) →
      c ∈ applyStamps F base l m' → c ∈ m' ∨ (base ≤ c.1 ∧ c.1 < base + F.hlen) := by
    intro l
    induction l with
    | nil => intro m' _ h; exact .inl h
    | cons st l ih =>
      intro m' hl h
      rcases ih _ (fun x hx => hl x (by simp [hx])) h with h | h
      · rcases mem_insertField h with h | h
        · exact .inl h
        · have := (stamp_row hF (hl st (by simp))).2
          exact .inr (by omega)
      · exact .inr h
  rcases key _ _ (Format.wf_iff.mp hF).2.2.2.2.2.1 h with h | h
  · rcases Memory.mem_writeBytes _ h with h | h
    · exact .inl h
    · exact .inr (by simpa using h)
  · exact .inr h

/-- A zeroed header: every field is 0. -/
theorem extract_zeroHeader {F : Format} (hF : F.wf = true) (m : Memory) (base : Nat) {fid : Nat} {d : Desc}
    (hd : F.fields[fid]? = some d) : extract (zeroHeader m base F) base d = 0 := by
  have hw := Format.row_wf hF hd
  have hwd := (Desc_wf_iff d).mp hw.1
  apply Nat.eq_of_testBit_eq
  intro k
  rw [extract_testBit _ _ _ hwd.2.2.2]
  by_cases hk : k < d.w
  · have h0 : headerBit (zeroHeader m base F) base (d.firstBit + (d.w - 1 - k)) = false := by
      unfold headerBit zeroHeader
      rw [Memory.read_writeBytes, if_pos]
      · rw [List.getD_eq_getElem?_getD, List.getElem?_replicate]
        split <;> simp
      · rw [List.length_replicate]
        have := hw.2
        unfold windowBits at hwd
        unfold Desc.firstBit Format.hlen
        omega
    rw [h0]; simp
  · simp [hk]

/-- The value of a field after a list of stamps: the constant of the last stamp on it, else what it was. -/
theorem extract_applyStamps {F : Format} (hF : F.wf = true) {l : List Stamp}
    (hl : ∀ st ∈ l, F.fits st.fid st.k = true) (base : Nat) (m : Memory) {fid : Nat} {d : Desc}
    (hd : F.fields[fid]? = some d) :
    extract (applyStamps F base l m) base d =
      ((l.reverse.find? fun st => decide (st.fid = fid)).map fun st => st.k).getD (extract m base d) := by
  induction l generalizing m with
  | nil => rfl
  | cons st l ih =>
    refine (ih (fun x hx => hl x (by simp [hx])) _).trans ?_
    rw [List.reverse_cons, List.find?_append]
    cases l.reverse.find? fun st => decide (st.fid = fid) with
    | some x => rfl
    | none =>
      have hst := Format.lt_of_fits (hl st (by simp))
      have hwr := (Desc_wf_iff _).mp (stamp_row hF (hl st (by simp))).1
      have hwd := (Desc_wf_iff d).mp (Format.row_wf hF hd).1
      apply Nat.eq_of_testBit_eq
      intro k
      by_cases h : st.fid = fid
      · subst h
        rw [Format.row_of_getElem? hd] at *
        simp only [Option.map_none, Option.getD_none, List.find?_singleton, decide_true, if_true, Option.none_or,
          Option.map_some, Option.getD_some]
        rw [extract_testBit _ _ _ hwd.2.2.2, headerBit_insertField _ _ _ _ _ hwd.2.2.2]
        by_cases hk : k < d.w
        · rw [if_pos (by unfold Desc.firstBit; omega)]
          simp only [hk, decide_true, Bool.true_and]
          congr 1; omega
        · simp only [hk, decide_false, Bool.false_and]
          exact (Nat.testBit_lt_two_pow (Nat.lt_of_lt_of_le hst.2 (Nat.pow_le_pow_right (by decide) (by omega)))).symm
      · simp only [Option.map_none, Option.getD_none, List.find?_singleton, h, decide_false, Bool.false_eq_true, if_false,
          Option.none_or]
        have hdis := pairwiseDisjoint_rows (Format.wf_iff.mp hF).2.2.2.2.1 h (Format.getElem?_row hst.1) hd
        simp only [Desc.disjoint, Bool.or_eq_true, decide_eq_true_eq] at hdis
        rw [extract_testBit _ _ _ hwd.2.2.2, extract_testBit _ _ _ hwd.2.2.2, headerBit_insertField _ _ _ _ _ hwr.2.2.2]
        by_cases hk : k < d.w
        · rw [if_neg]; omega
        · simp [hk]

end Sys2Proof.Machine
end

