-- ==== Sys2Proof/Tests/Slice0.lean ====
section
/-! SUPPORT. Tests: expected values are the vectors of spec/95_test_vectors.md (the id stands beside each) and the words of
30_encoding.md R91. Below them, for each statement with hypotheses, states and operands that meet them all together. -/

namespace Sys2Proof.Machine.Tests

/-! ## Ill-formed commands are refused (30_encoding.md R91) -/

theorem test_wf_get_format : Instr.wf (.get 16 0) = false := by decide
theorem test_wf_get_field : Instr.wf (.get 2 256) = false := by decide
theorem test_wf_set_format : Instr.wf (.set 16 0) = false := by decide
theorem test_wf_set_field : Instr.wf (.set 2 256) = false := by decide
theorem test_wf_init : Instr.wf (.init 16) = false := by decide
theorem test_wf_isvalid : Instr.wf (.isvalid 16) = false := by decide
theorem test_wf_getd_q : Instr.wf (.getd 16 0 1) = false := by decide
theorem test_wf_getd_o : Instr.wf (.getd 0 32 1) = false := by decide
theorem test_wf_getd_w : Instr.wf (.getd 0 0 128) = false := by decide
theorem test_wf_setd_q : Instr.wf (.setd 16 0 1) = false := by decide
theorem test_wf_setd_o : Instr.wf (.setd 0 32 1) = false := by decide
theorem test_wf_setd_w : Instr.wf (.setd 0 0 128) = false := by decide
theorem test_wf_largest : Instr.wf (.getd 15 31 127) = true ∧ Instr.wf (.set 15 255) = true := by decide

/-! ## Ill-formed configurations have no semantics (10_state.md R38, R39) -/

/-- The default configuration with another CVF record. -/
def withCvf (F : Format) : Config :=
  { Config.default with rom := { FormatRom.default CvfConstants.default with cvf := some F } }

def cvf : Format := cvfRecord CvfConstants.default

theorem test_config_default : Config.default.wf = true := by decide
theorem test_config_bad_width : (withCvf { cvf with fields := [⟨0, 1, 32⟩], stamps := [], lenrule := none, checks := [] }).wf = false := by
  decide
theorem test_config_header_too_short : (withCvf { cvf with n := 5 }).wf = false := by decide
theorem test_config_overlap : (withCvf { cvf with fields := ⟨0, 0, 9⟩ :: cvf.fields }).wf = false := by decide
theorem test_config_stamp_too_large : (withCvf { cvf with stamps := [⟨1, 2⟩] }).wf = false := by decide
theorem test_config_lenrule_no_field : (withCvf { cvf with lenrule := some ⟨20, 1, 24⟩ }).wf = false := by decide
theorem test_config_check_same_field : (withCvf { cvf with checks := [.exclusive 3 3] }).wf = false := by decide
theorem test_config_check_range : (withCvf { cvf with checks := [.inRange 12 3 2] }).wf = false := by decide
theorem test_config_most : { Config.default with rom := { avtp := none, udp := none, cvf := none, most := some udpRecord } }.wf
    = false := by decide

/-! ## Decoding words written out from 30_encoding.md R81 to R84 -/

/-- Why a word is rejected, if it is. -/
def rejection (c : Word) : Option DecodeError :=
  match decodeWord c with
  | .ok _ => none
  | .error e => some e

theorem test_decode_nop : decodeTableWord 32 0b0000_0000000000000000000000000000 = some .nop := by decide
theorem test_decode_get : decodeTableWord 32 0b0001_0010_00000110_0000000000000000 = some (.get 2 6) := by decide
theorem test_decode_set : decodeTableWord 32 0b0010_0001_00000000_0000000000000000 = some (.set 1 0) := by decide
theorem test_decode_init : decodeTableWord 32 0b0011_0010_000000000000000000000000 = some (.init 2) := by decide
theorem test_decode_isvalid : decodeTableWord 32 0b0100_0010_000000000000000000000000 = some (.isvalid 2) := by decide
theorem test_decode_getd : decodeTableWord 32 0b0101_000000000000_0000_11111_0100001 = some (.getd 0 31 33) := by decide
theorem test_decode_setd : decodeTableWord 32 0b0110_000000000000_0001_11100_0001000 = some (.setd 1 28 8) := by decide
theorem test_decode_illegal : rejection 0xF2FFFFFF = some .illegalOpcode := by decide
theorem test_decode_reserved : rejection 0x42800000 = some .reservedBits := by decide
theorem test_encode : encode (.get 2 9) = 0x12090000 ∧ encode (.setd 1 31 33) = 0x60001FA1 := by decide

/-! ## The assembler (30_encoding.md R91, R92) -/

theorem test_assemble_names : assembleWord "GET CVF, SEQUENCE_NUM".toList = some 0x12060000 := by decide
theorem test_assemble_inline : assembleWord "setd 1, 0x1c, 8".toList = some 0x60001E08 := by decide
theorem test_assemble_too_wide : assembleWord "GETD 0, 32, 1".toList = none := by decide
theorem test_assemble_word : assembleWord ".word 0x12090001".toList = some 0x12090001 := by decide
theorem test_assemble_ldv : assembleLine "LDV 0x0102030405060708".toList =
    some [.regWrite 0x18 .word 0x05060708, .regWrite 0x1C .word 0x01020304] := by decide
theorem test_assemble_memw : assembleLine "MEMW 0x1000, 0xDE 0xAD".toList =
    some [.memWrite 0x1000 0xDE, .memWrite 0x1001 0xAD] := by decide
theorem test_disassemble : disassemble 0x50000FA1 = "GETD 0, 31, 33".toList := by decide

/-! ## One step on a small state -/

/-- A unit of the default configuration with a view of `len` bytes at `base`, the bytes of M from there, VALUE, and 0x55 in
RESULT. -/
def unit (base len : Nat) (bytes : List Byte) (value : Nat) : State :=
  { State.reset with
    bufBase := BitVec.ofNat 32 base, bufLen := BitVec.ofNat 32 len, result := 0x55,
    valueLo := BitVec.ofNat 32 value, valueHi := BitVec.ofNat 32 (value / 2 ^ 32), mem := Memory.writeBytes [] base bytes }

/-- The next state, if there is one. -/
def nextOf : Host.Outcome State Fault Refusal → Option State
  | .next t => some t
  | _ => none

/-- What a state shows: the word of STATUS, RESULT, and `n` bytes of the view. -/
def shows (n : Nat) (s : State) : Word × Nat × List Byte :=
  (readRegister s 0x04, s.result.toNat, (List.range n).map s.bufByte)

/-- What a CMD write of the word `c` leaves to be seen: it is placed as the next bus operation and taken by one step. -/
def after (c n : Nat) (s : State) : Option (Word × Nat × List Byte) := (nextOf (step (s.withFetchWord 32 c))).map (shows n)

/-- Bytes 01 02 03 ... 18 (hex), the buffer of the GET and GETD rows. -/
def counting : List Byte := (List.range 24).map (fun i => BitVec.ofNat 8 (i + 1))

/-- A CVF header as INIT leaves it, with bytes replaced. -/
def header (edits : List (Nat × Byte)) : List Byte :=
  edits.foldl (fun bs e => bs.set e.1 e.2)
    [0x03, 0x80, 0, 0, 0, 0, 0, 0, 0, 0, 0, 0, 0, 0, 0, 0, 0x02, 0, 0, 0, 0, 0, 0, 0]

-- NOP: N-2 (STATUS was an error), N-3
theorem test_nop_clears : after 0x00000000 0 ((unit 0 0 [] 0).setStatus (Status.ofError .bounds)) = some (0, 0x55, []) := by
  decide
theorem test_nop_reserved : after 0x00000001 0 (unit 0 0 [] 0) = some (0x21, 0x55, []) := by decide
-- GET: E2 and G-18
theorem test_get_stream_id : after 0x12090000 0 (unit 0x1000 24 (header [(4, 1), (5, 2), (6, 3), (7, 4), (8, 5), (9, 6),
    (10, 7), (11, 8)]) 0) = some (0, 0x0102030405060708, []) := by decide
theorem test_get_field_error : after 0x12140000 0 (unit 0x1000 24 counting 0) = some (0x41, 0, []) := by decide
-- GETD: G-2 and G-11
theorem test_getd_offset_31 : after 0x50000FA1 0 (unit 0x1000 24 counting 0) = some (0, 0x05060708, []) := by decide
theorem test_getd_bounds : after 0x50001040 0 (unit 0x1000 10 counting 0) = some (0x81, 0, []) := by decide
-- SET: S-7 and S-8
theorem test_set_truncates : after 0x22060000 4 (unit 0x1000 4 [0x03, 0x80, 0x12, 0x00] 0x1FF) =
    some (0, 0x55, [0x03, 0x80, 0xFF, 0x00]) := by decide
theorem test_set_bounds : after 0x21000000 4 (unit 0x1000 3 [0, 0, 0, 0] 5) = some (0x81, 0x55, [0, 0, 0, 0]) := by
  decide
-- SETD: S-2 and S-4
theorem test_setd_middle : after 0x60000208 4 (unit 0x1000 4 [0x11, 0x11, 0x11, 0x11] 0x1AB) =
    some (0, 0x55, [0x1A, 0xB1, 0x11, 0x11]) := by decide
theorem test_setd_offset_31 : after 0x60000FA1 8 (unit 0x1000 8 (List.replicate 8 0xAA) (2 ^ 64 - 1)) =
    some (0, 0x55, [0xAA, 0xAA, 0xAA, 0xAB, 0xFF, 0xFF, 0xFF, 0xFF]) := by decide
-- INIT: I-1 and I-2
theorem test_init_cvf : after 0x32000000 28 (unit 0x1000 28 (List.replicate 28 0xEE) 0) =
    some (0, 0x55, header [] ++ [0xEE, 0xEE, 0xEE, 0xEE]) := by decide +kernel
theorem test_init_short : after 0x32000000 16 (unit 0x1000 16 (List.replicate 16 0xEE) 0) =
    some (0x81, 0x55, List.replicate 16 0xEE) := by decide
-- ISVALID: V-15 and V-4 (accept); V-9, V-5 (the claim is one over the buffer) and V-2 (reject)
theorem test_isvalid_accepts : after 0x42000000 0 (unit 0x1000 24 (header [(22, 0x3F)]) 0) = some (2, 0x55, []) ∧
    after 0x42000000 0 (unit 0x1000 30 (header [(21, 6)]) 0) = some (2, 0x55, []) := by decide
theorem test_isvalid_rejects : after 0x42000000 0 (unit 0x1000 24 (header [(17, 3)]) 0) = some (0, 0x55, []) ∧
    after 0x42000000 0 (unit 0x1000 30 (header [(21, 7)]) 0) = some (0, 0x55, []) ∧
    after 0x42000000 0 (unit 0x1000 23 (header []) 0) = some (0, 0x55, []) := by decide
-- X-3 to X-10: the priority of errors
theorem test_error_priority :
    [0xF2FFFFFF, 0x2F000001, 0x2F000000, 0x22FF0000, 0x22090000, 0x50000000, 0x12090000].map
        (fun c => after c 0 (unit 0 0 [] 0)) =
      [some (0x11, 0x55, []), some (0x21, 0x55, []), some (0x31, 0x55, []), some (0x41, 0x55, []), some (0x61, 0x55, []),
       some (0x51, 0, []), some (0x61, 0, [])] := by decide
theorem test_error_view : after 0x12000000 0 (unit 0xFFFFFFF0 0x20 [] 0) = some (0x71, 0, []) := by decide
-- K-2 and G-21
theorem test_first_command_after_reset : after 0x12000000 0 State.reset = some (0x61, 0, []) := by decide
theorem test_view_at_the_top : after 0x50003020 0 (unit 0xFFFFFFF0 16 ((List.range 16).map (fun i => BitVec.ofNat 8 (i + 1))) 0)
    = some (0, 0x0D0E0F10, []) := by decide
-- K-1
theorem test_reset_registers : [0x00, 0x04, 0x08, 0x10, 0x14, 0x18, 0x1C, 0x20, 0x24].map (readRegister State.reset) =
    [0x17220100, 0, 0, 0, 0, 0, 0, 0, 0] := by decide
-- K-4: CMD holds the word, whatever the outcome
theorem test_cmd_reads_back : (nextOf (step (State.reset.withFetchWord 32 0x22090000))).map (fun t => readRegister t 0x08) =
    some 0x22090000 := by decide

/-! ## Witnesses: states and operands that meet the hypotheses of a statement together -/

/-- The outcome is a next state of which `p` holds. -/
def answers (o : Host.Outcome State Fault Refusal) (p : State → Bool) : Bool :=
  match o with
  | .next t => p t
  | _ => false

theorem exists_next {o : Host.Outcome State Fault Refusal} {p : State → Bool} (h : answers o p = true) :
    ∃ t, o = .next t ∧ p t = true := by
  cases o with
  | next t => exact ⟨t, rfl, h⟩
  | fault f => cases h
  | refused r => cases h

/-- It ended with no error. -/
def noError (t : State) : Bool := !t.status.err

theorem exists_noError {o : Host.Outcome State Fault Refusal} (h : answers o noError = true) :
    ∃ t, o = .next t ∧ t.status.err = false := by
  obtain ⟨t, h1, h2⟩ := exists_next h
  exact ⟨t, h1, by simpa [noError] using h2⟩

theorem exists_error {o : Host.Outcome State Fault Refusal} (h : answers o (fun t => t.status.err) = true) :
    ∃ t, o = .next t ∧ t.status.err = true := exists_next h

/-- A CVF header of exactly 24 bytes in the view. -/
def ready : State := unit 0x1000 24 (header []) 0x0102030405060708

/-- A view that ends at 2^32. -/
def atTop : State := unit 0xFFFFFFF0 16 [] 0

/-- A view at address 0, where NULL_BASE_CHECK = 0 makes it ordinary. -/
def atZero : State := { unit 0 24 (header []) 0 with cfg := { Config.default with nullBaseCheck := false } }

/-- A format whose one field stands at quadlet 15. -/
def deep : State :=
  { ready with cfg := withCvf { n := 17, fields := [⟨15, 0, 64⟩], stamps := [], lenrule := none, checks := [] } }

/-- `ready` with one bus operation pending. -/
def pending (op : BusOp) : State := { ready with inbox := [op] }

/-- `ready` under OTHER_WRITERS = 1 with one bus operation pending. -/
def contested (op : BusOp) : State := { pending op with cfg := { Config.default with otherWriters := true } }

theorem ready_wf : ready.cfg.wf = true := by decide
theorem pending_wf (op : BusOp) : (pending op).cfg.wf = true := ready_wf
theorem ready_buffer : BufferReady ready := ⟨by decide, by decide, by decide, by decide⟩
theorem atTop_buffer : BufferReady atTop := ⟨by decide, by decide, by decide, by decide⟩
theorem atZero_buffer : BufferReady atZero := ⟨by decide, by decide, by decide, by decide⟩
theorem short_buffer : BufferReady (unit 0x1000 23 (header []) 0) := ⟨by decide, by decide, by decide, by decide⟩
theorem claiming_buffer : BufferReady (unit 0x1000 24 (header [(21, 1)]) 0) := ⟨by decide, by decide, by decide, by decide⟩
theorem ready_cvf : ready.record 2 = some cvf := rfl
theorem ready_field : FieldIs ready 2 9 ⟨1, 0, 64⟩ := ⟨cvf, rfl, rfl⟩
theorem ready_last_field : FieldIs ready 2 19 ⟨5, 24, 8⟩ := ⟨cvf, rfl, rfl⟩
theorem ready_last_window : WindowFits ready ⟨5, 24, 8⟩ := by unfold WindowFits; decide

theorem witness_ResetSetsEveryRegister : ∃ (s : State) (rest : List BusOp), s.cfg.wf = true ∧ s.inbox = .reset :: rest :=
  ⟨pending .reset, [], pending_wf _, rfl⟩

theorem witness_ResetStateMeetsInvariant :
    (Config.placedAt 0 [⟨0, 16⟩]).wf = true ∧ { Config.default with aw := 1 }.wf = true := by decide

theorem witness_ReadOnlyAndReservedSlotsIgnoreWrites_write (off : Nat) (h : off ∈ [0x00, 0x04, 0x20, 0x24, 0x0C, 0x28, 0x3C]) :
    ∃ (s : State) (data : Word) (rest : List BusOp), s.cfg.wf = true ∧
      (off = 0x00 ∨ off = 0x04 ∨ off = 0x20 ∨ off = 0x24 ∨ off = 0x0C ∨ (off % 4 = 0 ∧ 0x28 ≤ off ∧ off ≤ 0x3C)) ∧
      s.inbox = .regWrite off .word data :: rest :=
  ⟨pending (.regWrite off .word 0xFFFFFFFF), 0xFFFFFFFF, [], pending_wf _, by
    simp only [List.mem_cons, List.not_mem_nil, or_false] at h; omega, rfl⟩

theorem witness_ReadOnlyAndReservedSlotsIgnoreWrites_read (off : Nat) (h : off ∈ [0x00, 0x3C]) :
    ∃ (s : State) (rest : List BusOp), s.cfg.wf = true ∧ off % 4 = 0 ∧ off ≤ 0x3C ∧ s.inbox = .regRead off .word :: rest := by
  simp only [List.mem_cons, List.not_mem_nil, or_false] at h
  exact ⟨pending (.regRead off .word), [], pending_wf _, by omega, by omega, rfl⟩

theorem witness_OperandRegistersReadBack (off : Nat) (h : off ∈ [0x10, 0x14, 0x18, 0x1C]) :
    ∃ (s : State) (data : Word) (rest : List BusOp), s.cfg.wf = true ∧
      (off = 0x10 ∨ off = 0x14 ∨ off = 0x18 ∨ off = 0x1C) ∧ s.inbox = .regWrite off .word data :: rest :=
  ⟨pending (.regWrite off .word 0xFFFFFFFF), 0xFFFFFFFF, [], pending_wf _, by simpa using h, rfl⟩

theorem witness_UndefinedRegisterAccessIsRefused : ∀ x ∈ [(0x00, AccessSize.byte), (0x01, .word), (0x3D, .half), (0x40, .word)],
    (x.2 ≠ .word ∨ x.1 % 4 ≠ 0 ∨ 0x3C < x.1) ∧ (pending (.regWrite x.1 x.2 0)).cfg.wf = true ∧
    (pending (.regWrite x.1 x.2 0)).inbox = [.regWrite x.1 x.2 0] ∧ (pending (.regRead x.1 x.2)).inbox = [.regRead x.1 x.2] := by
  decide

theorem witness_OnlyGetAndGetdWriteResult : ∃ (s t : State) (c : Word) (rest : List BusOp),
    s.inbox = .regWrite 0x08 .word c :: rest ∧ step s = .next t ∧ opField c ≠ 1 ∧ opField c ≠ 5 :=
  have ⟨t, ht⟩ := exists_noError (o := step (pending (.regWrite 0x08 .word 0x32000000))) (by decide)
  ⟨_, t, 0x32000000, [], rfl, ht.1, by decide, by decide⟩

theorem witness_DecodeOfEncodeIsTheCommand : ∀ i ∈ [Instr.nop, .get 15 255, .set 0 0, .init 15, .isvalid 15, .getd 15 31 127,
    .setd 15 31 127], i.wf = true := by decide

theorem witness_EncodeOfDecodeIsTheWord : decodeWord 0x5000FFFF = .ok (.getd 15 31 127) := by
  rw [decodeWord_op5 (by decide), if_pos (by decide)]
  rfl

theorem witness_StepRunsTheDecodedCommand : ∃ (s : State) (c : Word) (i : Instr) (rest : List BusOp),
    s.inbox = .regWrite 0x08 .word c :: rest ∧ decodeWord c = .ok i :=
  ⟨pending (.regWrite 0x08 .word 0x5000FFFF), 0x5000FFFF, .getd 15 31 127, [], rfl, witness_EncodeOfDecodeIsTheWord⟩

/-- A state with the word `c` pending, at a given view. -/
def issue (base len : Nat) (c : Word) : State := { unit base len [] 0 with inbox := [.regWrite 0x08 .word c] }

theorem issue_wf (base len : Nat) (c : Word) : (issue base len c).cfg.wf = true := ready_wf

/-- `issue 0 0 c` meets the hypotheses on the state of the two statements below; the words meet those on the word. -/
theorem witness_issue (c : Word) : (issue 0 0 c).cfg.wf = true ∧ (issue 0 0 c).inbox = .regWrite 0x08 .word c :: [] :=
  ⟨ready_wf, rfl⟩

theorem witness_IllegalOpcodeRaisesEOpcode : ∀ c ∈ [(0x70000000 : Word), 0xFFFFFFFF], 0x70000000 ≤ c.toNat := by
  simp

theorem witness_ReservedBitRaisesERsvd : ∀ c ∈ [(0x00000001 : Word), 0x12090001, 0x2F008000, 0x32000100, 0x42800000, 0x50010000,
    0x68000000],
    ((c.toNat / 2 ^ 28 = 0 ∧ c.toNat % 2 ^ 28 ≠ 0) ∨
      ((c.toNat / 2 ^ 28 = 1 ∨ c.toNat / 2 ^ 28 = 2) ∧ c.toNat % 2 ^ 16 ≠ 0) ∨
      ((c.toNat / 2 ^ 28 = 3 ∨ c.toNat / 2 ^ 28 = 4) ∧ c.toNat % 2 ^ 24 ≠ 0) ∨
      ((c.toNat / 2 ^ 28 = 5 ∨ c.toNat / 2 ^ 28 = 6) ∧ c.toNat / 2 ^ 16 % 2 ^ 12 ≠ 0)) := by simp

theorem witness_AbsentFormatRaisesEFormat : ∀ fmt ∈ [0, 3, 4, 15], ready.cfg.wf = true ∧ Instr.wf (.get fmt 255) = true ∧
    Instr.wf (.set fmt 0) = true ∧ Instr.wf (.init fmt) = true ∧ Instr.wf (.isvalid fmt) = true ∧ ready.record fmt = none := by
  decide

theorem witness_FieldIdPastTheTableRaisesEField : ∀ x ∈ [(2, 20, cvf), (2, 255, cvf), (1, 1, udpRecord)], ready.cfg.wf = true ∧
    x.2.1 < 256 ∧ ready.record x.1 = some x.2.2 ∧ x.2.2.fields.length ≤ x.2.1 := by decide

theorem witness_IllFormedInlineDescriptorRaisesEDesc : ∀ x ∈ [(0, 31, 0), (15, 0, 65), (0, 0, 127), (0, 1, 32), (0, 31, 2),
    (0, 31, 34), (0, 1, 64)], ready.cfg.wf = true ∧ x.1 < 16 ∧ x.2.1 < 32 ∧ x.2.2 < 128 ∧
    (x.2.2 = 0 ∨ 64 < x.2.2 ∨ (x.2.2 ≤ 32 ∧ 32 < x.2.1 + x.2.2) ∨ (33 ≤ x.2.2 ∧ x.2.2 ≤ 64 ∧ 64 < x.2.1 + x.2.2)) := by decide

/-- What FirstErrorInPriorityOrderIsReported assumes. -/
def FirstCause (s : State) (c : Word) (e : ErrCode) : Prop :=
  s.cfg.wf = true ∧ s.inbox = [.regWrite 0x08 .word c] ∧ Cause c s e ∧
  ∀ e', Cause c s e' → ErrCode.priority e ≤ ErrCode.priority e'

theorem witness_FirstError_opcode : FirstCause (issue 0 0 0xF2FFFFFF) 0xF2FFFFFF .opcode :=
  ⟨issue_wf .., rfl, by unfold Cause; decide, fun _ _ => Nat.zero_le _⟩

theorem witness_FirstError_rsvd : ∃ c, FirstCause (issue 0 0 c) c .rsvd := by
  obtain ⟨c, hc⟩ : ∃ c : Word, c = 0x2F000001 := ⟨_, rfl⟩
  have h : opField c = 2 := by subst hc; decide
  refine ⟨c, issue_wf .., rfl, by subst hc; unfold Cause; decide, fun e' he => ?_⟩
  cases e' <;> simp [Cause, h] at he <;> decide

theorem witness_FirstError_format : ∃ c, FirstCause (issue 0 0 c) c .format := by
  obtain ⟨c, hc⟩ : ∃ c : Word, c = 0x2F000000 := ⟨_, rfl⟩
  have h : opField c = 2 := by subst hc; decide
  have h0 : bitField c 15 0 = 0 := by subst hc; decide
  refine ⟨c, issue_wf .., rfl, by subst hc; unfold Cause; decide, fun e' he => ?_⟩
  cases e' <;> simp [Cause, h, h0] at he <;> decide

theorem witness_FirstError_field : ∃ c, FirstCause (issue 0 0 c) c .field := by
  obtain ⟨c, hc⟩ : ∃ c : Word, c = 0x22FF0000 := ⟨_, rfl⟩
  have h : opField c = 2 := by subst hc; decide
  have h0 : bitField c 15 0 = 0 := by subst hc; decide
  have h1 : (issue 0 0 c).record (bitField c 27 24) = some cvf := by subst hc; decide
  refine ⟨c, issue_wf .., rfl, ⟨.inr h, cvf, h1, by subst hc; decide⟩, fun e' he => ?_⟩
  cases e' <;> simp [Cause, h, h0, h1] at he <;> decide

theorem witness_FirstError_desc : ∃ c, FirstCause (issue 0 0 c) c .desc := by
  obtain ⟨c, hc⟩ : ∃ c : Word, c = 0x50000000 := ⟨_, rfl⟩
  have h : opField c = 5 := by subst hc; decide
  have h0 : bitField c 27 16 = 0 := by subst hc; decide
  refine ⟨c, issue_wf .., rfl, ⟨.inl h, by subst hc; unfold DescLegal; decide⟩, fun e' he => ?_⟩
  cases e' <;> simp [Cause, h, h0] at he <;> decide

theorem witness_FirstError_nullBase : ∃ c, FirstCause (issue 0 0 c) c .nullBase := by
  obtain ⟨c, hc⟩ : ∃ c : Word, c = 0x22090000 := ⟨_, rfl⟩
  have h : opField c = 2 := by subst hc; decide
  have h0 : bitField c 15 0 = 0 := by subst hc; decide
  have h1 : (issue 0 0 c).record (bitField c 27 24) = some cvf := by subst hc; decide
  have h2 : ¬cvf.fields.length ≤ bitField c 23 16 := by subst hc; decide
  refine ⟨c, issue_wf .., rfl, by subst hc; unfold Cause; decide, fun e' he => ?_⟩
  cases e' <;> simp [Cause, h, h0, h1, h2] at he <;> decide

theorem witness_FirstError_view : ∃ c, FirstCause (issue 0xFFFFFFF0 0x11 c) c .view := by
  obtain ⟨c, hc⟩ : ∃ c : Word, c = 0x12000000 := ⟨_, rfl⟩
  have h : opField c = 1 := by subst hc; decide
  have h0 : bitField c 15 0 = 0 := by subst hc; decide
  have h1 : (issue 0xFFFFFFF0 0x11 c).record (bitField c 27 24) = some cvf := by subst hc; decide
  have h2 : ¬cvf.fields.length ≤ bitField c 23 16 := by subst hc; decide
  have h3 : ¬(issue 0xFFFFFFF0 0x11 c).base = 0 := by subst hc; decide
  refine ⟨c, issue_wf .., rfl, by subst hc; unfold Cause; decide, fun e' he => ?_⟩
  cases e' <;> simp [Cause, h, h0, h1, h2, h3] at he <;> decide

theorem witness_FirstError_bounds : ∃ c, FirstCause (issue 0x1000 11 c) c .bounds := by
  obtain ⟨c, hc⟩ : ∃ c : Word, c = 0x12090000 := ⟨_, rfl⟩
  have h : opField c = 1 := by subst hc; decide
  have h0 : bitField c 15 0 = 0 := by subst hc; decide
  have h1 : (issue 0x1000 11 c).record (bitField c 27 24) = some cvf := by subst hc; decide
  have h2 : ¬cvf.fields.length ≤ bitField c 23 16 := by subst hc; decide
  have h3 : ¬(issue 0x1000 11 c).base = 0 := by subst hc; decide
  have h4 : ¬2 ^ (issue 0x1000 11 c).cfg.aw < (issue 0x1000 11 c).base + (issue 0x1000 11 c).len := by subst hc; decide
  refine ⟨c, issue_wf .., rfl,
    .inl ⟨.inl h, ⟨1, 0, 64⟩, ⟨cvf, h1, by subst hc; decide⟩, by subst hc; unfold WindowFits; decide⟩, fun e' he => ?_⟩
  cases e' <;> simp [Cause, h, h0, h1, h2, h3, h4] at he
  decide

theorem witness_ReportedErrorHasItsCause : ∃ (s t : State) (c : Word) (rest : List BusOp),
    s.inbox = .regWrite 0x08 .word c :: rest ∧ step s = .next t ∧ t.status.err = true :=
  have ⟨t, ht⟩ := exists_error (o := step (issue 0x1000 11 0x12090000)) (by decide)
  ⟨_, t, _, [], rfl, ht.1, ht.2⟩

/-- No word whose run ends with no error has a cause; here a GET over plain memory, NOP, and a GET whose last byte is the
register block's first. -/
theorem witness_WithoutACause (s : State) (base len : Nat) (hs : s = unit base len [] 0) (hb : s.base ≠ 0) (hl : 4 ≤ s.len)
    (hf : s.base + s.len ≤ 2 ^ s.cfg.aw) : ∀ e, ¬Cause 0x12000000 s e := by
  obtain ⟨c, hc⟩ : ∃ c : Word, c = 0x12000000 := ⟨_, rfl⟩
  rw [← hc]
  have h : opField c = 1 := by subst hc; decide
  have h0 : bitField c 15 0 = 0 := by subst hc; decide
  have h2 : bitField c 23 16 = 0 := by subst hc; decide
  have h5 : bitField c 27 24 = 2 := by subst hc; decide
  have h1 : s.record (bitField c 27 24) = some cvf := by rw [h5]; subst hs; rfl
  intro e he
  cases e with
  | bounds =>
    simp only [Cause, h, h2, h5] at he
    obtain ⟨-, d, ⟨F, hF, hd⟩, hw⟩ | ⟨h6, -⟩ | ⟨h6, -⟩ := he
    · rw [← h5, h1, Option.some.injEq] at hF
      subst hF
      have : d = ⟨0, 0, 8⟩ := by simpa [cvf, cvfRecord, cvfFields] using hd.symm
      subst this
      exact hw (by simpa [WindowFits, nq] using hl)
    · omega
    · omega
  | field =>
    obtain ⟨-, F, hF, hl⟩ := he
    rw [h1, Option.some.injEq] at hF
    subst hF
    rw [h2] at hl
    exact absurd hl (by decide)
  | view => simp only [Cause] at he; omega
  | opcode => simp only [Cause] at he; omega
  | rsvd => simp only [Cause] at he; omega
  | format => simp [Cause, h1] at he
  | desc => simp only [Cause] at he; omega
  | nullBase => exact hb he.2.2.2

theorem witness_WithoutACause_plain : (∀ e, ¬Cause 0x12000000 (unit 0x1000 4 [] 0) e) ∧ viewPlain (unit 0x1000 4 [] 0) = true :=
  ⟨witness_WithoutACause _ _ _ rfl (by decide) (by decide) (by decide), by decide⟩

theorem witness_WithoutACause_notPlain :
    (∀ e, ¬Cause 0x12000000 (unit 0x3FFFFFF0 17 [] 0) e) ∧ (0x12000000 : Word) ≠ 0 ∧
    viewPlain (unit 0x3FFFFFF0 17 [] 0) = false ∧ viewPlain (unit 0x3FFFFFF0 16 [] 0) = true :=
  ⟨witness_WithoutACause _ _ _ rfl (by decide) (by decide) (by decide), by decide, by decide, by decide⟩

theorem witness_NopOnlyClearsStatus : ready.cfg.wf = true ∧ (issue 0 0 0).inbox = .regWrite 0x08 .word 0 :: [] ∧
    (0x0FFFFFFF : Word).toNat / 2 ^ 28 = 0 ∧ (0x0FFFFFFF : Word) ≠ 0 := ⟨ready_wf, rfl, by simp, by decide⟩

theorem witness_GetAndSetComplete : BufferReady ready ∧ FieldIs ready 2 19 ⟨5, 24, 8⟩ ∧ WindowFits ready ⟨5, 24, 8⟩ ∧
    BufferReady atZero ∧ FieldIs atZero 2 9 ⟨1, 0, 64⟩ ∧ WindowFits atZero ⟨1, 0, 64⟩ :=
  ⟨ready_buffer, ready_last_field, ready_last_window, atZero_buffer, ⟨cvf, rfl, rfl⟩, by unfold WindowFits; decide⟩

theorem witness_GetdAndSetdComplete : BufferReady atTop ∧
    (∀ d ∈ [(⟨0, 0, 1⟩ : Desc), ⟨3, 0, 32⟩, ⟨2, 31, 33⟩, ⟨2, 0, 64⟩], DescLegal d ∧ WindowFits atTop d) := by
  refine ⟨atTop_buffer, ?_⟩
  unfold DescLegal WindowFits
  decide

theorem witness_DescriptorsOfEveryShape :
    ∀ d ∈ [(⟨0, 0, 1⟩ : Desc), ⟨0, 31, 1⟩, ⟨3, 0, 32⟩, ⟨2, 31, 33⟩, ⟨2, 0, 64⟩], d.wf = true := by decide

/-- A GET and a GETD that end with no error. -/
theorem witness_ExtractedValueFitsItsWidth :
    (∃ t, exec (.get 2 9) ready = .next t ∧ t.status.err = false) ∧ FieldIs ready 2 9 ⟨1, 0, 64⟩ ∧
    ∃ t, exec (.getd 0 31 33) ready = .next t ∧ t.status.err = false :=
  ⟨exists_noError (by decide), ready_field, exists_noError (by decide)⟩

/-- A SET of a value that fills its field (R110), and one of a value that does not fit (R111, R113, R205), end with no error. -/
theorem witness_SetThenGetReturnsTheValue :
    (∃ t, exec (.set 2 9) ready = .next t ∧ t.status.err = false) ∧ FieldIs ready 2 9 ⟨1, 0, 64⟩ ∧ ready.value < 2 ^ 64 ∧
    (∃ t, exec (.setd 4 0 64) ready = .next t ∧ t.status.err = false) :=
  ⟨exists_noError (by decide), ready_field, by decide, exists_noError (by decide)⟩

theorem witness_SetTruncatesTheValue :
    (∃ t, exec (.set 2 19) ready = .next t ∧ t.status.err = false) ∧ FieldIs ready 2 19 ⟨5, 24, 8⟩ ∧
    2 ^ 32 * (0 : Word).toNat + (8 : Word).toNat = ready.value % 2 ^ 8 ∧
    (∃ t, exec (.setd 0 31 33) ready = .next t ∧ t.status.err = false) ∧
    2 ^ 32 * (0 : Word).toNat + (0x05060708 : Word).toNat = ready.value % 2 ^ 33 :=
  ⟨exists_noError (by decide), ready_last_field, by decide, exists_noError (by decide), by decide⟩

theorem witness_NarrowFieldIgnoresValueHi :
    (∃ t, exec (.setd 5 0 32) ready = .next t ∧ t.status.err = false) ∧
    (∃ t, exec (.set 2 10) ready = .next t ∧ t.status.err = false) ∧ FieldIs ready 2 10 ⟨3, 0, 32⟩ ∧
    (∃ t, exec (.set 2 9) ready = .next t ∧ t.status.err = false) ∧ FieldIs ready 2 9 ⟨1, 0, 64⟩ :=
  ⟨exists_noError (by decide), exists_noError (by decide), ⟨cvf, rfl, rfl⟩, exists_noError (by decide), ready_field⟩

theorem witness_DisjointFieldsDoNotInterfere :
    (Desc.wf ⟨0, 8, 1⟩ = true ∧ Desc.wf ⟨0, 9, 3⟩ = true ∧
      ∀ b, ¬((32 * 0 + 8 ≤ b ∧ b < 32 * 0 + 8 + 1) ∧ (32 * 0 + 9 ≤ b ∧ b < 32 * 0 + 9 + 3))) ∧
    (∃ t, exec (.set 2 1) ready = .next t ∧ t.status.err = false) ∧ FieldIs ready 2 2 ⟨0, 9, 3⟩ :=
  ⟨⟨by decide, by decide, by omega⟩, exists_noError (by decide), ⟨cvf, rfl, rfl⟩⟩

theorem witness_InsertOverwritesAndRestores : Desc.wf ⟨0, 31, 33⟩ = true ∧ Memory.wf ready.mem := by decide

theorem witness_TableAndInlineFormsAgree : FieldIs deep 0x2 0 ⟨15, 0, 64⟩ ∧ deep.cfg.wf = true ∧ FieldIs ready 2 0 ⟨0, 0, 8⟩ :=
  ⟨⟨_, rfl, rfl⟩, by decide, ⟨cvf, rfl, rfl⟩⟩

theorem witness_InitCompletesWithTheHeader : BufferReady ready ∧ ready.record 2 = some cvf ∧ 4 * cvf.n ≤ ready.len ∧
    BufferReady atTop ∧ atTop.record 1 = some udpRecord ∧ 4 * udpRecord.n ≤ atTop.len :=
  ⟨ready_buffer, rfl, by decide, atTop_buffer, rfl, by decide⟩

theorem witness_InitLeavesStampsAndZeros : ready.record 2 = some cvf ∧
    (∃ t, exec (.init 2) ready = .next t ∧ t.status.err = false) ∧ cvf.fields[11]? = some ⟨4, 0, 8⟩ ∧
    lastStamp cvf 11 = some 2 ∧ lastStamp cvf 2 = none := ⟨rfl, exists_noError (by decide), rfl, rfl, rfl⟩

theorem witness_InitIsIdempotentAndItsHeaderIsValid : (∃ t, exec (.init 2) ready = .next t ∧ t.status.err = false) ∧
    Memory.wf ready.mem ∧ BufferReady ready ∧ ready.cfg.rom = FormatRom.default CvfConstants.default ∧ 24 ≤ ready.len :=
  ⟨exists_noError (by decide), by decide, ready_buffer, rfl, by decide⟩

theorem accepts_ready : Accepts ready cvf := by
  refine ⟨by decide, fun r hr => ?_, ?_⟩
  · obtain rfl : r = ⟨14, 1, 24⟩ := by simpa [cvf, cvfRecord] using hr.symm
    decide
  · intro ch hch
    simp only [cvf, cvfRecord, List.mem_cons, List.not_mem_nil, or_false] at hch
    obtain rfl | rfl | rfl | rfl | rfl | rfl | rfl | rfl := hch <;> decide

theorem witness_IsvalidCompletesWithTheVerdict : BufferReady ready ∧ ready.record 2 = some cvf ∧ Accepts ready cvf ∧
    BufferReady (unit 0x1000 23 (header []) 0) ∧ ¬Accepts (unit 0x1000 23 (header []) 0) cvf :=
  ⟨ready_buffer, rfl, accepts_ready, short_buffer, fun h => absurd h.1 (by decide)⟩

theorem witness_IsvalidNeverRaisesBounds : (∃ t, exec (.isvalid 2) ready = .next t ∧ t.status.err = false) ∧
    ready.cfg.wf = true ∧ ready.record 2 = some cvf ∧ 4 * cvf.n ≤ ready.len ∧ 19 ∈ validityFields cvf ∧
    cvf.fields[19]? = some ⟨5, 24, 8⟩ ∧ InWindow ready ⟨5, 24, 8⟩ 0x1017 :=
  ⟨exists_noError (by decide), ready_wf, rfl, by decide, by decide, rfl, by unfold InWindow; decide⟩

theorem witness_IsvalidIsRepeatable : (15 < 16) ∧ (∃ t, exec (.isvalid 15) ready = .next t ∧ t.status.err = true) ∧
    ∃ t, exec (.isvalid 2) ready = .next t ∧ t.status.err = false :=
  ⟨by decide, exists_error (by decide), exists_noError (by decide)⟩

theorem witness_ValidityBoundaryIsTheHeaderLength : BufferReady ready ∧ ready.record 2 = some cvf ∧ ready.len = 4 * cvf.n ∧
    ChecksHold ready cvf ∧ ClaimAtMost ready cvf (4 * cvf.n) ∧ BufferReady (unit 0x1000 23 (header []) 0) ∧
    (unit 0x1000 23 (header []) 0).len = 4 * cvf.n - 1 :=
  ⟨ready_buffer, rfl, rfl, accepts_ready.2.2, accepts_ready.2.1, short_buffer, rfl⟩

theorem witness_LengthClaimPastTheBufferIsRejected : BufferReady (unit 0x1000 24 (header [(21, 1)]) 0) ∧
    (unit 0x1000 24 (header [(21, 1)]) 0).record 2 = some cvf ∧ cvf.lenrule = some ⟨14, 1, 24⟩ ∧
    (unit 0x1000 24 (header [(21, 1)]) 0).len <
      1 * (unit 0x1000 24 (header [(21, 1)]) 0).fieldValue (Format.row cvf 14) + 24 :=
  ⟨claiming_buffer, rfl, rfl, by decide⟩

theorem witness_DefaultRecordsAreWellFormed : (⟨255, 255, 255⟩ : CvfConstants).subtype < 256 := by decide

theorem witness_NonStoringCommandsLeaveMemory : ∀ i ∈ [Instr.nop, .get 15 255, .get 2 9, .getd 15 31 127, .getd 0 31 33,
    .isvalid 2, .isvalid 15], i.wf = true ∧ ∃ t, exec i ready = .next t ∧ true = true := by
  intro i hi
  simp only [List.mem_cons, List.not_mem_nil, or_false] at hi
  obtain rfl | rfl | rfl | rfl | rfl | rfl | rfl := hi <;> exact ⟨by decide, exists_next (p := fun _ => true) (by decide)⟩

/-- A SET that stores, and a SETD that ends in an error. -/
theorem witness_SetAndSetdStoreOnlyTheirWindow : Instr.wf (.set 2 19) = true ∧ FieldIs ready 2 19 ⟨5, 24, 8⟩ ∧
    (∃ t, exec (.set 2 19) ready = .next t ∧ t.status.err = false) ∧ Instr.wf (.setd 15 31 127) = true ∧
    ∃ t, exec (.setd 15 31 127) ready = .next t ∧ t.status.err = true :=
  ⟨by decide, ready_last_field, exists_noError (by decide), by decide, exists_error (by decide)⟩

theorem witness_InitStoresOnlyTheHeader : (∀ d, ¬FieldIs ready 2 20 d) ∧
    (∃ t, exec (.set 2 20) ready = .next t ∧ t.status.err = true) ∧
    (∃ t, exec (.init 2) ready = .next t ∧ t.status.err = false) ∧ ready.record 2 = some cvf ∧
    ∃ t, exec (.init 15) ready = .next t ∧ t.status.err = true := by
  refine ⟨fun d ⟨F, hF, hd⟩ => ?_, exists_error (by decide), exists_noError (by decide), rfl, exists_error (by decide)⟩
  obtain rfl : F = cvf := by simpa [ready_cvf] using hF.symm
  exact absurd hd (by simp [cvf, cvfRecord, cvfFields])

theorem witness_CanonicalMemoryIsAFunctionOfItsBytes : Memory.wf [(0, 1), (0xFFFFFFFF, 0x80)] ∧
    ∀ a, Memory.read (Memory.write [] 5 0) a = Memory.read [] a := ⟨by decide, fun a => by simp [Memory.write, unlisted]⟩

theorem witness_CommandsTouchOnlyTheirFootprint : (∃ t, exec (.init 2) ready = .next t ∧ t.status.err = false) ∧
    0x1017 ∈ footprint ready (.init 2) ∧ 0x1018 ∉ footprint ready (.init 2) ∧
    ∃ t, exec (.init 3) ready = .next t ∧ t.status.err = true :=
  ⟨exists_noError (by decide), by decide, by decide, exists_error (by decide)⟩

/-- Two states that agree on the operands and on the view, and differ in the byte after it and in RESULT. -/
theorem witness_OutcomeDependsOnlyOnOperandsAndView : ∃ s', Instr.wf (.get 2 9) = true ∧
    (∃ t, exec (.get 2 9) ready = .next t ∧ t.status.err = false) ∧ SameOperands ready s' ∧
    (∀ a, InView ready a → Memory.read s'.mem a = Memory.read ready.mem a) ∧ s'.mem ≠ ready.mem := by
  refine ⟨{ ready with mem := ready.mem ++ [(0x1018, 0xEE)], result := 0 }, by decide, exists_noError (by decide),
    ⟨rfl, rfl, rfl, rfl, rfl⟩, fun a ha => ?_, by decide⟩
  have h : ∀ m : Memory, a ≠ 0x1018 → Memory.read (m ++ [(0x1018, 0xEE)]) a = Memory.read m a := by
    intro m hne
    induction m with
    | nil => simp [Memory.read, Ne.symm hne]
    | cons c m ih => exact congrArg (fun r => if c.1 = a then c.2 else r) ih
  have h1 : ready.base + ready.len = 0x1018 := by decide
  exact h _ (by have := ha.2; omega)

theorem witness_EveryStepKeepsTheInvariant : ∃ s, State.Inv s ∧ ∃ t, step s = .next t ∧ t.status.err = false :=
  ⟨pending (.memWrite 0xFFFFFFFF 0x80),
   ⟨by unfold Status.Legal; decide, by unfold Memory.Legal; decide, by decide⟩, exists_noError (by decide)⟩

theorem witness_ConfigurationIsImmutable : (∃ s t, Reaches s t) ∧
    { ready with cfg := withCvf { cvf with n := 5 } }.cfg.wf = false ∧
    (withCvf { cvf with n := 5 }).rom.record 2 = some { cvf with n := 5 } ∧ Format.wf { cvf with n := 5 } = false :=
  ⟨⟨ready, ready, .start⟩, by decide, rfl, by decide⟩

/-- The lowest and the highest address, the two around the register block, and the first address past M. -/
theorem witness_HostAccessesReadAndWriteMemory (b : Byte) :
    (∀ a ∈ [0, 0xFFFFFFFF, 0x3FFFFFFF, 0x40000040], (pending (.memWrite a b)).cfg.wf = true ∧ a < 2 ^ ready.cfg.aw ∧
      ¬(ready.cfg.regBase ≤ a ∧ a < ready.cfg.regBase + 64) ∧ ready.cfg.notPlain = []) ∧
    2 ^ ready.cfg.aw ≤ 0x100000000 := by
  refine ⟨fun a h => ⟨ready_wf, ?_⟩, by decide⟩
  revert a
  decide

theorem witness_ResetAbandonsARunningCommand : ∃ (s u : State) (c : Word) (rest : List BusOp), s.cfg.wf = true ∧
    s.inbox = .resetDuring c :: rest ∧ executeWord c { s with inbox := rest } = .next u ∧ touchedBytes c s u ≠ [] := by
  obtain ⟨u, h1, h2⟩ := exists_next (o := executeWord 0x32000000 ready)
    (p := fun u => decide (touchedBytes 0x32000000 ready u ≠ [])) (by decide)
  exact ⟨pending (.resetDuring 0x32000000), u, 0x32000000, [], pending_wf _, rfl, h1, of_decide_eq_true h2⟩

theorem witness_ContendedCommand_free : ∃ (s u : State) (c : Word) (rest : List BusOp), s.cfg.wf = true ∧
    s.inbox = .contendedCmd c :: rest ∧ executeWord c { s with inbox := rest } = .next u ∧ s.cfg.otherWriters = true ∧
    touchedBytes c s u ≠ [] ∧ opField c = 5 := by
  obtain ⟨u, h1, h2⟩ := exists_next (o := executeWord 0x50000020 { contested (.contendedCmd 0x50000020) with inbox := [] })
    (p := fun u => decide (touchedBytes 0x50000020 ready u ≠ [])) (by decide)
  exact ⟨contested (.contendedCmd 0x50000020), u, 0x50000020, [], by decide, rfl, h1, rfl, of_decide_eq_true h2, by decide⟩

theorem witness_ContendedCommand_empty : ∃ (s u : State) (c : Word) (rest : List BusOp), s.cfg.wf = true ∧
    s.inbox = .contendedCmd c :: rest ∧ executeWord c { s with inbox := rest } = .next u ∧ s.cfg.otherWriters = true ∧
    touchedBytes c s u = [] := by
  obtain ⟨u, h1, h2⟩ := exists_next (o := executeWord 0x00000000 { contested (.contendedCmd 0) with inbox := [] })
    (p := fun u => decide (touchedBytes 0x00000000 ready u = [])) (by decide)
  exact ⟨contested (.contendedCmd 0), u, 0, [], by decide, rfl, h1, rfl, of_decide_eq_true h2⟩

theorem witness_ContendedCommand_excluded : (pending (.contendedCmd 0x32000000)).cfg.otherWriters = false ∧
    ∃ u, executeWord 0x32000000 { pending (.contendedCmd 0x32000000) with inbox := [] } = .next u ∧ u.status.err = false :=
  ⟨rfl, exists_noError (by decide)⟩

end Sys2Proof.Machine.Tests
end

section
/-! PROOFS. The statements about the register block and the configuration (10_state.md R28 to R30, R39). What each operation
does is said first, once: the word that decodes is its command's own word, so a CMD write runs one rule in the frame of Execute;
each register access is an equation of runBusOp. -/

/-! ## The decoder and the encoder agree on a word that decodes -/

namespace Sys2Proof

open Laws.OwnOpcode in
/-- The command has the word's opcode, operands that fit their fields, and every other bit of the word is 0. -/
theorem decodeWord_eq_ok {c : Word} {i : Instr} (h : decodeWord c = .ok i) :
    i.wf = true ∧ opField c = opcodeOf i ∧ c.toNat = opcodeOf i * 2 ^ 28 + operandBits i := by
  have hc := c.isLt
  unfold decodeWord at h
  split at h
  case h_8 => cases h
  all_goals
    rename_i hop
    split at h <;> cases h
    rename_i hz
    simp only [Instr.wf, opcodeOf, operandBits, Bool.and_eq_true, decide_eq_true_eq, true_and]
    simp only [opField, bitField] at hop hz ⊢
    omega

/-- The encoder writes the opcode and the operand bits of every well-formed command. -/
theorem Laws.OwnOpcode.statement_all (i : Instr) : Laws.OwnOpcode.Statement i := by
  cases i with
  | nop => exact nop
  | get fmt fid => exact get fmt fid
  | set fmt fid => exact set fmt fid
  | init fmt => exact init fmt
  | isvalid fmt => exact isvalid fmt
  | getd q o w => exact getd q o w
  | setd q o w => exact setd q o w

theorem encode_of_decodeWord {c : Word} {i : Instr} (h : decodeWord c = .ok i) : encode i = c := by
  obtain ⟨hwf, -, hbits⟩ := decodeWord_eq_ok h
  obtain ⟨-, henc⟩ := Laws.OwnOpcode.statement_all i hwf
  exact BitVec.eq_of_toNat_eq (henc.trans hbits.symm)

end Sys2Proof

namespace Sys2Proof.Machine

/-! ## What a command word can do -/

/-- A CMD write runs its word's rule in the frame of Execute, whether or not the word decodes (30_encoding.md R80). -/
theorem executeWord_eq (c : Word) (s : State) : executeWord c s = runCommand c (wordRule c) s := by
  cases hd : decodeWord c with
  | ok i => simp only [executeWord, wordRule, hd, exec_eq, encode_of_decodeWord hd]
  | error e => simp only [executeWord, wordRule, hd]

/-- No command's rule writes an operand register or CFG. -/
theorem ruleOf_sameOperands {i : Instr} {s t : State} (h : ruleOf i s = .ok t) : SameOperands s t := by
  obtain ⟨rfl, -⟩ | ⟨fmt, F, -, -, -, rfl⟩ | ⟨d, -, rfl, -⟩ | ⟨d, -, rfl, -⟩ | ⟨fmt, F, -, -, -, -, -, rfl⟩ :=
    ruleOf_eq_ok h <;> exact ⟨rfl, rfl, rfl, rfl, rfl⟩

theorem executeWord_sameOperands {c : Word} {s t : State} (h : executeWord c s = .next t) : SameOperands s t := by
  rw [executeWord_eq] at h
  obtain ⟨-, hok | ⟨e, -, rfl⟩⟩ := runCommand_eq_next.mp h
  · obtain ⟨i, -, hi⟩ := wordRule_ok hok
    simpa [SameOperands] using ruleOf_sameOperands hi
  · exact ⟨rfl, rfl, rfl, rfl, rfl⟩

theorem executeWord_cfg {c : Word} {s t : State} (h : executeWord c s = .next t) : t.cfg = s.cfg := by
  obtain ⟨-, -, -, -, hcfg⟩ := executeWord_sameOperands h
  exact hcfg

theorem writesResult_eq_false {c : Word} (h1 : opField c ≠ 1) (h5 : opField c ≠ 5) : writesResult c = false := by
  simp [writesResult, h1, h5]

/-- Only the rules of GET and GETD write RESULT (10_state.md R28). -/
theorem ruleOf_result {i : Instr} {s t : State} (h : ruleOf i s = .ok t) (h1 : Laws.OwnOpcode.opcodeOf i ≠ 1)
    (h5 : Laws.OwnOpcode.opcodeOf i ≠ 5) : t.result = s.result := by
  obtain ⟨rfl, -⟩ | ⟨fmt, F, -, -, -, rfl⟩ | ⟨d, -, -, ⟨fmt, fid, F, rfl, -⟩ | ⟨rfl, -⟩⟩ | ⟨d, -, rfl, -⟩ |
    ⟨fmt, F, -, -, -, -, -, rfl⟩ := ruleOf_eq_ok h
  · rfl
  · rfl
  · exact absurd rfl h1
  · exact absurd rfl h5
  · rfl
  · rfl

theorem executeWord_result {c : Word} {s t : State} (h : executeWord c s = .next t) (h1 : opField c ≠ 1)
    (h5 : opField c ≠ 5) : t.result = s.result := by
  rw [executeWord_eq] at h
  obtain ⟨-, hok | ⟨e, -, rfl⟩⟩ := runCommand_eq_next.mp h
  · obtain ⟨i, hd, hi⟩ := wordRule_ok hok
    obtain ⟨-, hop, -⟩ := decodeWord_eq_ok hd
    exact (ruleOf_result hi (hop ▸ h1) (hop ▸ h5)).trans (beginCommand_result c s)
  · simp [writesResult_eq_false h1 h5]

/-! ## Register accesses -/

theorem accessDefined_iff {off : Nat} {size : AccessSize} :
    accessDefined off size = true ↔ size = .word ∧ off % 4 = 0 ∧ off ≤ 0x3C := by
  simp [accessDefined, and_assoc]

theorem accessDefined_eq_false {off : Nat} {size : AccessSize} :
    accessDefined off size = false ↔ size ≠ .word ∨ off % 4 ≠ 0 ∨ 0x3C < off := by
  rw [← Bool.not_eq_true, accessDefined_iff, not_and_or, not_and_or, not_le]

theorem runBusOp_regWrite {off : Nat} {size : AccessSize} (data : Word) (s : State) (ha : accessDefined off size = true)
    (h8 : off ≠ 0x08) : runBusOp (.regWrite off size data) s = .next (writeRegister s off data) := by
  simp [runBusOp, ha, h8]

theorem runBusOp_regRead {off : Nat} {size : AccessSize} (s : State) (ha : accessDefined off size = true) :
    runBusOp (.regRead off size) s = .next (s.answer (.word (readRegister s off))) := by
  simp [runBusOp, ha]

theorem runBusOp_regWrite_undefined {off : Nat} {size : AccessSize} (data : Word) (s : State)
    (ha : accessDefined off size = false) : runBusOp (.regWrite off size data) s = .refused .registerAccess := by
  simp [runBusOp, ha]

theorem runBusOp_regRead_undefined {off : Nat} {size : AccessSize} (s : State) (ha : accessDefined off size = false) :
    runBusOp (.regRead off size) s = .refused .registerAccess := by
  simp [runBusOp, ha]

theorem readRegister_reserved (s : State) {off : Nat} (h : off = 0x0C ∨ 0x28 ≤ off) : readRegister s off = 0 := by
  rw [readRegister] <;> omega

/-- The pending operations are no part of what a register read answers. -/
@[simp] theorem readRegister_withInbox (s : State) (l : List BusOp) (off : Nat) :
    readRegister { s with inbox := l } off = readRegister s off := rfl

/-- Only the four operand registers take a written word (10_state.md R21, R29). -/
theorem writeRegister_ignored (s : State) {off : Nat} (data : Word) (h10 : off ≠ 0x10) (h14 : off ≠ 0x14)
    (h18 : off ≠ 0x18) (h1C : off ≠ 0x1C) : writeRegister s off data = s := by
  rw [writeRegister] <;> assumption

@[simp] theorem writeRegister_result (s : State) (off : Nat) (data : Word) : (writeRegister s off data).result = s.result := by
  unfold writeRegister; split <;> rfl

@[simp] theorem writeRegister_cfg (s : State) (off : Nat) (data : Word) : (writeRegister s off data).cfg = s.cfg := by
  unfold writeRegister; split <;> rfl

/-- RESULT is its two halves as the register block shows them (10_state.md R28). -/
theorem result_toNat (s : State) :
    s.result.toNat = (readRegister s 0x24).toNat * 2 ^ 32 + (readRegister s 0x20).toNat := by
  have hlt := s.result.isLt
  simp only [readRegister, BitVec.toNat_setWidth, BitVec.toNat_ushiftRight, Nat.shiftRight_eq_div_pow]
  omega

/-! ## No step changes the configuration -/

@[simp] theorem scramble_cfg (l : List Nat) (s : State) : (scramble l s).cfg = s.cfg := by
  obtain ⟨m, n, h⟩ := scramble_eq l s
  rw [h]

/-- A command that reset abandons had a run, and leaves the registers reset over the scrambled footprint. -/
theorem abandonCommand_eq_next {c : Word} {s t : State} (h : abandonCommand c s = .next t) :
    ∃ u, executeWord c s = .next u ∧ t = resetRegisters (scramble (touchedBytes c s u) s) := by
  unfold abandonCommand at h
  split at h <;> cases h
  exact ⟨_, ‹_›, rfl⟩

/-- A contended command had a run, and either ended as that run or left free values over its footprint. -/
theorem contendCommand_eq_next {c : Word} {s t : State} (h : contendCommand c s = .next t) :
    ∃ u, executeWord c s = .next u ∧ (t = u ∨ t = scramble (touchedBytes c s u) (freeOutcome c u)) := by
  unfold contendCommand at h
  split at h
  · split at h
    · rename_i u hu
      refine ⟨u, hu, ?_⟩
      split at h <;> cases h
      · exact .inl rfl
      · rename_i hb
        exact .inr (by rw [hb])
    · cases h
    · cases h
  · cases h

theorem runBusOp_cfg {op : BusOp} {s t : State} (h : runBusOp op s = .next t) : t.cfg = s.cfg := by
  cases op with
  | regWrite off size data =>
    simp only [runBusOp] at h
    split at h
    · split at h
      · exact executeWord_cfg h
      · cases h
        exact writeRegister_cfg s off data
    · cases h
  | regRead off size =>
    simp only [runBusOp] at h
    split at h <;> cases h
    rfl
  | memWrite addr data =>
    obtain ⟨-, rfl⟩ := hostAccess_eq_next h
    rfl
  | memRead addr =>
    obtain ⟨-, rfl⟩ := hostAccess_eq_next h
    rfl
  | reset => cases h; rfl
  | resetDuring c =>
    obtain ⟨u, -, rfl⟩ := abandonCommand_eq_next h
    simp
  | contendedCmd c =>
    obtain ⟨u, hu, rfl | rfl⟩ := contendCommand_eq_next h
    · exact executeWord_cfg hu
    · simpa using executeWord_cfg hu

theorem step_cfg {s t : State} (h : step s = .next t) : t.cfg = s.cfg := by
  have hc := cfg_of_step h
  cases hi : s.inbox with
  | nil =>
    rw [step_idle hc hi] at h
    cases h
    rfl
  | cons op rest =>
    rw [step_cons hc hi] at h
    exact (runBusOp_cfg h).trans rfl

theorem reaches_cfg {s t : State} (h : Reaches s t) : t.cfg = s.cfg := by
  induction h with
  | start => rfl
  | more _ hstep ih => exact (step_cfg hstep).trans ih

theorem config_illFormed_of_record {C : Config} {c : Nat} {F : Format} (hF : C.rom.record c = some F)
    (hwf : F.wf = false) : C.wf = false :=
  Bool.eq_false_iff.mpr fun hC => Bool.eq_false_iff.mp hwf (Config.record_wf hC hF)

/-! ## The statements -/

/-- Settles O7: RESULT is its two halves, and neither a register write nor a word of another opcode reaches it. -/
theorem onlyGetAndGetdWriteResult : Obligations.OnlyGetAndGetdWriteResult := by
  refine ⟨result_toNat, writeRegister_result, fun s t c rest hin hstep h1 h5 => ?_⟩
  rw [step_cmd (cfg_of_step hstep) hin] at hstep
  exact (executeWord_result hstep h1 h5).trans rfl

/-- Settles O53, by induction on the run for its first part. -/
theorem configurationIsImmutable : Obligations.ConfigurationIsImmutable :=
  ⟨fun _ _ => reaches_cfg, fun _ hc => ⟨step_illFormed hc, exec_illFormed hc⟩, fun _ _ _ => config_illFormed_of_record⟩

/-- Settles O4, from what one register access does at each offset. -/
theorem readOnlyAndReservedSlotsIgnoreWrites : Obligations.ReadOnlyAndReservedSlotsIgnoreWrites := by
  refine ⟨fun s off h => readRegister_reserved s (by omega), fun s off data rest hc hoff hin => ?_,
    fun s off rest hc halign hle hin => ?_⟩
  · have ha : accessDefined off .word = true := accessDefined_iff.mpr ⟨rfl, by omega, by omega⟩
    rw [step_cons hc hin, runBusOp_regWrite data _ ha (by omega),
      writeRegister_ignored _ data (by omega) (by omega) (by omega) (by omega)]
  · rw [step_cons hc hin, runBusOp_regRead _ (accessDefined_iff.mpr ⟨rfl, halign, hle⟩), readRegister_withInbox]
    rfl

/-- Settles O6: accessDefined is false of such an access, and then runBusOp refuses it. -/
theorem undefinedRegisterAccessIsRefused : Obligations.UndefinedRegisterAccessIsRefused := by
  intro s off size data rest hc hundef
  have ha : accessDefined off size = false := accessDefined_eq_false.mpr hundef
  exact ⟨fun hin => by rw [step_cons hc hin, runBusOp_regWrite_undefined data _ ha],
    fun hin => by rw [step_cons hc hin, runBusOp_regRead_undefined _ ha]⟩

end Sys2Proof.Machine
end

section
/-! PROOFS. The decoder against the match and mask table (30_encoding.md R87). The mask of each row is the opcode's bits and the
row's reserved bits, so a row hits a word when the opcode is its own and the reserved bits are 0, which is what the decoder asks. -/

namespace Sys2Proof

open Laws.OwnOpcode

/-! ## Masks as bit fields -/

/-- The word whose 1 bits are `[hi:lo]`. -/
def fieldMask (hi lo : Nat) : Word := BitVec.ofNat 32 ((2 ^ (hi + 1 - lo) - 1) <<< lo)

/-- A field below the opcode's, in its place, stays below the opcode's bits. -/
theorem bitField_shiftLeft_lt (c : Word) {hi lo : Nat} (hhi : hi < 28) (hle : lo ≤ hi) : bitField c hi lo <<< lo < 2 ^ 28 := by
  have hlt : bitField c hi lo < 2 ^ (hi + 1 - lo) := Nat.mod_lt _ (by positivity)
  calc bitField c hi lo <<< lo = bitField c hi lo * 2 ^ lo := Nat.shiftLeft_eq ..
    _ < 2 ^ (hi + 1 - lo) * 2 ^ lo := Nat.mul_lt_mul_of_pos_right hlt (by positivity)
    _ = 2 ^ (hi + 1) := by rw [← pow_add, Nat.sub_add_cancel (by omega)]
    _ ≤ 2 ^ 28 := Nat.pow_le_pow_right (by decide) hhi

/-- Masking a word with a field leaves that field of the word, in its place. -/
theorem toNat_and_fieldMask (c : Word) {hi lo : Nat} (hhi : hi < 32) (hle : lo ≤ hi) :
    (c &&& fieldMask hi lo).toNat = bitField c hi lo <<< lo := by
  apply Nat.eq_of_testBit_eq
  intro j
  simp only [fieldMask, bitField, BitVec.toNat_and, BitVec.toNat_ofNat, Nat.testBit_and, Nat.testBit_mod_two_pow,
    Nat.testBit_shiftLeft, Nat.testBit_two_pow_sub_one, Nat.testBit_div_two_pow]
  by_cases hj : lo ≤ j
  · rw [Nat.sub_add_cancel hj]
    by_cases hj' : j ≤ hi
    · simp [hj, show j < 32 by omega, show j - lo < hi + 1 - lo by omega]
    · simp [show ¬ j - lo < hi + 1 - lo by omega]
  · simp [hj]

/-- The opcode's bits and a field below them, as one number. -/
theorem toNat_and_opMask_or (c : Word) {hi lo : Nat} (hhi : hi < 28) (hle : lo ≤ hi) :
    (c &&& (fieldMask 31 28 ||| fieldMask hi lo)).toNat = opField c * 2 ^ 28 + bitField c hi lo <<< lo := by
  rw [BitVec.and_or_distrib_left, BitVec.toNat_or, toNat_and_fieldMask c (by decide) (by decide),
    toNat_and_fieldMask c (by omega) hle, ← Nat.shiftLeft_add_eq_or_of_lt (bitField_shiftLeft_lt c hhi hle),
    Nat.shiftLeft_eq, opField]

/-! ## Rows and commands -/

/-- The table lists the commands in the order of their opcodes. -/
theorem idxOf_mnemonic (i : Instr) : (opcodeTable.map OpcodeRow.mnemonic).idxOf i.mnemonic = opcodeOf i := by
  cases i <;> rfl

theorem opcodeOf_eq_of_mnemonic_eq {i j : Instr} (h : i.mnemonic = j.mnemonic) : opcodeOf i = opcodeOf j := by
  rw [← idxOf_mnemonic, ← idxOf_mnemonic, h]

theorem exists_row_of_mnemonic (i : Instr) : ∃ r ∈ opcodeTable, r.mnemonic = i.mnemonic := by
  cases i <;> simp [opcodeTable, Instr.mnemonic]

/-- A row whose mask is the opcode's bits and one field hits the words of its opcode in which that field is 0. -/
theorem OpcodeRow.hits_iff {r : OpcodeRow} {k hi lo : Nat} (hhi : hi < 28) (hle : lo ≤ hi)
    (hmask : r.maskBits = fieldMask 31 28 ||| fieldMask hi lo) (hmatch : r.matchBits.toNat = k * 2 ^ 28) (c : Word) :
    r.hits c = true ↔ opField c = k ∧ bitField c hi lo = 0 := by
  have hlow := bitField_shiftLeft_lt c hhi hle
  have hzero : bitField c hi lo <<< lo = 0 ↔ bitField c hi lo = 0 := by simp
  rw [OpcodeRow.hits, beq_iff_eq, hmask, ← BitVec.toNat_inj, hmatch, toNat_and_opMask_or c hhi hle, ← hzero]
  generalize bitField c hi lo <<< lo = low at hlow ⊢
  omega

/-- A row that masks the bits the decoder requires to be 0 for the row's opcode hits the words that decode to a command of the
row's name. -/
theorem OpcodeRow.hits_iff_decodes {r : OpcodeRow} {c : Word} {i : Instr} {k hi lo : Nat}
    (hdec : opField c = k → decodeWord c = if bitField c hi lo = 0 then .ok i else .error .reservedBits)
    (hown : opcodeOf i = k) (hname : r.mnemonic = i.mnemonic) (hmatch : r.matchBits.toNat = k * 2 ^ 28)
    (hmask : r.maskBits = fieldMask 31 28 ||| fieldMask hi lo) (hhi : hi < 28) (hle : lo ≤ hi) :
    r.hits c = true ↔ ∃ j, decodeWord c = .ok j ∧ r.mnemonic = j.mnemonic := by
  rw [OpcodeRow.hits_iff hhi hle hmask hmatch]
  constructor
  · rintro ⟨hop, hz⟩
    exact ⟨i, by rw [hdec hop, if_pos hz], hname⟩
  · rintro ⟨j, hj, hjname⟩
    obtain ⟨-, hopj, -⟩ := decodeWord_eq_ok hj
    have hop : opField c = k := by rw [hopj, opcodeOf_eq_of_mnemonic_eq (hjname.symm.trans hname), hown]
    refine ⟨hop, ?_⟩
    by_contra hz
    rw [hdec hop, if_neg hz] at hj
    cases hj

/-- The mask of each row is its opcode and the bits that the decoder requires to be 0 for that opcode (30_encoding.md R87, R88). -/
theorem hits_iff_decodes_of_mem {r : OpcodeRow} (hr : r ∈ opcodeTable) (c : Word) :
    r.hits c = true ↔ ∃ j, decodeWord c = .ok j ∧ r.mnemonic = j.mnemonic := by
  simp only [opcodeTable, List.mem_cons, List.not_mem_nil, or_false] at hr
  obtain rfl | rfl | rfl | rfl | rfl | rfl | rfl := hr
  · exact OpcodeRow.hits_iff_decodes decodeWord_op0 rfl rfl (by decide) (by decide) (by decide) (by decide)
  · exact OpcodeRow.hits_iff_decodes decodeWord_op1 rfl rfl (by decide) (by decide) (by decide) (by decide)
  · exact OpcodeRow.hits_iff_decodes decodeWord_op2 rfl rfl (by decide) (by decide) (by decide) (by decide)
  · exact OpcodeRow.hits_iff_decodes decodeWord_op3 rfl rfl (by decide) (by decide) (by decide) (by decide)
  · exact OpcodeRow.hits_iff_decodes decodeWord_op4 rfl rfl (by decide) (by decide) (by decide) (by decide)
  · exact OpcodeRow.hits_iff_decodes decodeWord_op5 rfl rfl (by decide) (by decide) (by decide) (by decide)
  · exact OpcodeRow.hits_iff_decodes decodeWord_op6 rfl rfl (by decide) (by decide) (by decide) (by decide)

/-! ## The statement -/

/-- Settles O11: a row hits a word exactly when the word decodes to a command of the row's name, and each command has a row. -/
theorem decoderAgreesWithOpcodeTable : Obligations.DecoderAgreesWithOpcodeTable := by
  refine fun c => ⟨⟨?_, ?_⟩, fun i hi r hr => ?_⟩
  · rintro ⟨i, hi⟩
    obtain ⟨r, hr, hname⟩ := exists_row_of_mnemonic i
    exact ⟨r, hr, (hits_iff_decodes_of_mem hr c).mpr ⟨i, hi, hname⟩⟩
  · rintro ⟨r, hr, hhit⟩
    obtain ⟨i, hi, -⟩ := (hits_iff_decodes_of_mem hr c).mp hhit
    exact ⟨i, hi⟩
  · simp [hits_iff_decodes_of_mem hr c, hi]

end Sys2Proof
end

section
/-! PROOFS. The statements about the field access commands (40_field_access.md R108 to R115). A field's value and an insertion are
said once as header bits of the state; the four commands are said once as a read or a write of a field that the table or an inline
descriptor names. -/

namespace Sys2Proof.Machine

open Finset

/-! ## A field as header bits of the state -/

/-- Extract over the view, bit by bit (40_field_access.md R101). -/
theorem State.fieldValue_testBit (s : State) {d : Desc} (hd : d.wf = true) (k : Nat) :
    (s.fieldValue d).testBit k = (decide (k < d.w) && s.headerBit (d.firstBit + (d.w - 1 - k))) := by
  obtain ⟨-, -, -, hfit⟩ := (Desc_wf_iff d).mp hd
  exact extract_testBit s.mem s.base d hfit k

/-- Insert over the view, bit by bit (40_field_access.md R102). -/
theorem State.headerBit_insert (s : State) {d : Desc} (hd : d.wf = true) (v b : Nat) :
    (s.insert d v).headerBit b =
      if d.firstBit ≤ b ∧ b < d.firstBit + d.w then v.testBit (d.w - 1 - (b - d.firstBit)) else s.headerBit b := by
  obtain ⟨-, -, -, hfit⟩ := (Desc_wf_iff d).mp hd
  exact headerBit_insertField s.mem s.base d v b hfit

theorem State.headerBit_insert_outside (s : State) {d : Desc} (hd : d.wf = true) (v : Nat) {b : Nat}
    (hb : b < d.firstBit ∨ d.firstBit + d.w ≤ b) : (s.insert d v).headerBit b = s.headerBit b := by
  rw [State.headerBit_insert s hd, if_neg (by omega)]

theorem State.fieldValue_lt (s : State) (d : Desc) : s.fieldValue d < 2 ^ d.w := extract_lt s.mem s.base d

/-- The low `n` bits of a number, the bit of weight `2 ^ (n - 1)` first. -/
theorem mod_two_pow_eq_sum_testBit (x n : Nat) :
    x % 2 ^ n = ∑ j ∈ range n, (x.testBit (n - 1 - j)).toNat * 2 ^ (n - 1 - j) := by
  rw [sum_range_reflect (fun k => (x.testBit k).toNat * 2 ^ k) n]
  induction n with
  | zero => simp [Nat.mod_one]
  | succ n ih => rw [sum_range_succ, ← ih, Nat.mod_pow_succ, Nat.toNat_testBit, Nat.mul_comm]

/-- What was inserted in a field is read back modulo 2^w. -/
theorem State.fieldValue_insert_same (s : State) {d : Desc} (hd : d.wf = true) (v : Nat) :
    (s.insert d v).fieldValue d = v % 2 ^ d.w := by
  apply Nat.eq_of_testBit_eq
  intro k
  rw [State.fieldValue_testBit _ hd, State.headerBit_insert s hd, Nat.testBit_mod_two_pow]
  by_cases hk : k < d.w
  · rw [if_pos (by omega), show d.w - 1 - (d.firstBit + (d.w - 1 - k) - d.firstBit) = k by omega]
  · simp [hk]

/-- An insertion leaves the value of a field that shares no header bit with it. -/
theorem State.fieldValue_insert_of_disjoint (s : State) {d e : Desc} (hd : d.wf = true) (he : e.wf = true)
    (h : d.disjoint e = true) (v : Nat) : (s.insert d v).fieldValue e = s.fieldValue e := by
  have hde : d.firstBit + d.w ≤ e.firstBit ∨ e.firstBit + e.w ≤ d.firstBit := by simpa [Desc.disjoint] using h
  apply Nat.eq_of_testBit_eq
  intro k
  rw [State.fieldValue_testBit _ he, State.fieldValue_testBit _ he]
  by_cases hk : k < e.w
  · rw [State.headerBit_insert_outside s hd v (by omega)]
  · simp [hk]

/-- Two well-formed descriptors with no common header bit are disjoint as intervals. -/
theorem disjoint_of_no_common_bit {d e : Desc} (hd : d.wf = true) (he : e.wf = true)
    (h : ∀ b, ¬((d.firstBit ≤ b ∧ b < d.firstBit + d.w) ∧ (e.firstBit ≤ b ∧ b < e.firstBit + e.w))) :
    d.disjoint e = true := by
  obtain ⟨hdw, -⟩ := (Desc_wf_iff d).mp hd
  obtain ⟨hew, -⟩ := (Desc_wf_iff e).mp he
  have hlow := h d.firstBit
  have hhigh := h e.firstBit
  simp only [Desc.disjoint, Bool.or_eq_true, decide_eq_true_eq]
  omega

/-- Insert takes the low `w` bits of the value only. -/
theorem insertField_mod_two_pow (m : Memory) (base : Nat) (d : Desc) (v : Nat) :
    insertField m base d (v % 2 ^ d.w) = insertField m base d v := by
  have hbits : ((v % 2 ^ d.w) <<< d.shift) &&& (mask d.w <<< d.shift) = (v <<< d.shift) &&& (mask d.w <<< d.shift) := by
    rw [← Nat.shiftLeft_and_distrib, ← Nat.shiftLeft_and_distrib, mask, Nat.and_two_pow_sub_one_eq_mod,
      Nat.and_two_pow_sub_one_eq_mod, Nat.mod_mod]
  simp only [insertField, hbits]

/-! ## The four field commands as one -/

/-- CheckDesc asks for well-formedness: a width of 1 to 64 that fits leaves no offset above 31 (40_field_access.md R103). -/
theorem checkDesc_eq_ok_iff_wf {d : Desc} {u : Unit} : checkDesc d = .ok u ↔ d.wf = true := by
  rw [checkDesc_eq_ok, Desc_wf_iff]
  unfold windowBits nq
  split <;> omega

/-- A row of a table is a well-formed descriptor under a configuration that has a semantics. -/
theorem FieldIs.wf {s : State} {fmt fid : Nat} {d : Desc} (hc : s.cfg.wf = true) (h : FieldIs s fmt fid d) : d.wf = true := by
  obtain ⟨F, hF, hd⟩ := h
  exact (Format.row_wf (Config.record_wf hc hF) hd).1

/-- What a field command does with its field: GET and GETD read it, SET and SETD write it. -/
inductive FieldAction where
  | get
  | set

/-- How a command names its field: a row of a format's table (40_field_access.md R100) or an inline descriptor (R103). -/
inductive FieldOperand where
  | table (fmt fid : Nat)
  | inline (d : Desc)

/-- The command of an action and an operand. -/
def FieldOperand.command : FieldOperand → FieldAction → Instr
  | .table fmt fid, .get => .get fmt fid
  | .table fmt fid, .set => .set fmt fid
  | .inline d, .get => .getd d.q d.o d.w
  | .inline d, .set => .setd d.q d.o d.w

/-- The operand stands for the descriptor `d`. -/
def FieldOperand.Names (s : State) (d : Desc) : FieldOperand → Prop
  | .table fmt fid => FieldIs s fmt fid d
  | .inline e => e = d

/-- The checks of the view, then the effect. -/
def FieldAction.run : FieldAction → Desc → State → Except Stop State
  | .get => readField
  | .set => writeField

/-- The effect of the action when every check passes. -/
def FieldAction.effect : FieldAction → Desc → State → State
  | .get, d, s => s.setResult (s.fieldValue d)
  | .set, d, s => s.insert d s.value

section
variable {s t : State} {op : FieldOperand} {d : Desc}

/-- What an operand names depends on the configuration only. -/
theorem FieldOperand.Names.of_cfg_eq (h : op.Names s d) {t : State} (hcfg : t.cfg = s.cfg) : op.Names t d := by
  cases op with
  | table fmt fid => simpa only [FieldOperand.Names, FieldIs, State.record, hcfg] using h
  | inline e => exact h

theorem FieldAction.run_eq_ok {a : FieldAction} : a.run d s = .ok t ↔ ViewPasses s d ∧ t = a.effect d s := by
  cases a with
  | get => exact readField_eq_ok
  | set => exact writeField_eq_ok

@[simp] theorem FieldAction.effect_status (a : FieldAction) (d : Desc) (s : State) : (a.effect d s).status = s.status := by
  cases a <;> rfl

/-- The rule of a field command: a table's descriptor passes CheckDesc too, so both forms run it. -/
theorem ruleOf_command (hc : s.cfg.wf = true) (hn : op.Names s d) (a : FieldAction) :
    ruleOf (op.command a) s = (do checkDesc d; a.run d s) := by
  cases op with
  | table fmt fid =>
    have hcheck : checkDesc d = .ok () := checkDesc_eq_ok_iff_wf.mpr (FieldIs.wf hc hn)
    rw [hcheck, bind_ok]
    cases a <;> simp only [FieldOperand.command, FieldAction.run, ruleOf, resolve_eq_ok.mpr hn, bind_ok]
  | inline e =>
    obtain rfl : e = d := hn
    cases a <;> rfl

/-- The run of a command depends on its rule at the state in which Execute starts it. -/
theorem runCommand_congr {c : Word} {body body' : State → Except Stop State}
    (h : s.cfg.wf = true → body (beginCommand c s) = body' (beginCommand c s)) : runCommand c body s = runCommand c body' s := by
  unfold runCommand
  by_cases hc : s.cfg.wf = true
  · rw [h hc]
  · rw [if_neg hc, if_neg hc]

theorem exec_command (hn : op.Names s d) (a : FieldAction) :
    exec (op.command a) s = runCommand (encode (op.command a)) (fun t => do checkDesc d; a.run d t) s := by
  rw [exec_eq]
  exact runCommand_congr fun hc => ruleOf_command (s := beginCommand _ s) hc (hn.of_cfg_eq rfl) a

/-- The conditions under which a field command raises no error and is not refused. -/
def FieldReady (s : State) (d : Desc) : Prop := s.cfg.wf = true ∧ d.wf = true ∧ ViewPasses s d

/-- A field command that raises no error has passed every check, and all it does is its action's effect. -/
theorem exec_command_iff (hn : op.Names s d) (a : FieldAction) :
    (exec (op.command a) s = .next t ∧ t.status.err = false) ↔
      FieldReady s d ∧ t = a.effect d (beginCommand (encode (op.command a)) s) := by
  rw [exec_command hn, runCommand_eq_next]
  constructor
  · rintro ⟨⟨hc, hok | ⟨e, -, rfl⟩⟩, herr⟩
    · obtain ⟨_, hd, hrun⟩ := bind_eq_ok.mp hok
      obtain ⟨hv, ht⟩ := FieldAction.run_eq_ok.mp hrun
      exact ⟨⟨hc, checkDesc_eq_ok_iff_wf.mp hd, hv⟩, ht⟩
    · cases herr
  · rintro ⟨⟨hc, hd, hv⟩, rfl⟩
    refine ⟨⟨hc, .inl (bind_eq_ok.mpr ⟨(), checkDesc_eq_ok_iff_wf.mpr hd, FieldAction.run_eq_ok.mpr ⟨hv, rfl⟩⟩)⟩, ?_⟩
    rw [FieldAction.effect_status]
    rfl

/-! ## The laws of 40_field_access.md for both forms -/

theorem State.value_lt (s : State) : s.value < 2 ^ 64 := by
  have hhi := s.valueHi.isLt
  have hlo := s.valueLo.isLt
  unfold State.value
  omega

/-- R109: the value read is below 2^w, so RESULT is 0 from bit w up. -/
theorem get_result_lt (hn : op.Names s d) (h : exec (op.command .get) s = .next t) (he : t.status.err = false) :
    t.result.toNat < 2 ^ d.w ∧ ∀ k, d.w ≤ k → t.result.getLsbD k = false := by
  have hlt : t.result.toNat < 2 ^ d.w := by
    obtain ⟨-, rfl⟩ := (exec_command_iff hn .get).mp ⟨h, he⟩
    rw [FieldAction.effect, State.setResult_result, BitVec.toNat_ofNat]
    exact (Nat.mod_le _ _).trans_lt (State.fieldValue_lt _ d)
  exact ⟨hlt, fun k hk => Nat.testBit_lt_two_pow (hlt.trans_le (Nat.pow_le_pow_right (by decide) hk))⟩

/-- A read that passes the checks completes with the field's value in RESULT. -/
theorem exists_get_of_ready (hn : op.Names s d) (hr : FieldReady s d) :
    ∃ u, exec (op.command .get) s = .next u ∧ u.status.err = false ∧ u.result = BitVec.ofNat 64 (s.fieldValue d) := by
  obtain ⟨hget, herr⟩ := (exec_command_iff hn .get).mpr ⟨hr, rfl⟩
  exact ⟨_, hget, herr, rfl⟩

/-- R110 and R111: a read after a write returns the value modulo 2^w. -/
theorem exists_get_of_set (hn : op.Names s d) (h : exec (op.command .set) s = .next t) (he : t.status.err = false) :
    ∃ u, exec (op.command .get) t = .next u ∧ u.status.err = false ∧ u.result.toNat = s.value % 2 ^ d.w := by
  obtain ⟨hr, rfl⟩ := (exec_command_iff hn .set).mp ⟨h, he⟩
  have ⟨_, hd, _⟩ := hr
  obtain ⟨u, hget, herr, hu⟩ := exists_get_of_ready (s := (beginCommand _ s).insert d s.value) (hn.of_cfg_eq rfl) hr
  refine ⟨u, hget, herr, ?_⟩
  rw [hu, State.fieldValue_insert_same _ hd, BitVec.toNat_ofNat]
  exact Nat.mod_eq_of_lt ((Nat.mod_le _ _).trans_lt s.value_lt)

/-- R111: the value modulo 2^w leaves the same M. -/
theorem exists_set_of_value_mod (hn : op.Names s d) (h : exec (op.command .set) s = .next t) (he : t.status.err = false)
    {lo hi : Word} (hv : 2 ^ 32 * hi.toNat + lo.toNat = s.value % 2 ^ d.w) :
    ∃ t', exec (op.command .set) { s with valueLo := lo, valueHi := hi } = .next t' ∧ t'.mem = t.mem := by
  obtain ⟨hr, rfl⟩ := (exec_command_iff hn .set).mp ⟨h, he⟩
  obtain ⟨hset, -⟩ := (exec_command_iff (s := { s with valueLo := lo, valueHi := hi }) (hn.of_cfg_eq rfl) .set).mpr ⟨hr, rfl⟩
  refine ⟨_, hset, ?_⟩
  calc _ = insertField s.mem s.base d (2 ^ 32 * hi.toNat + lo.toNat) := rfl
    _ = insertField s.mem s.base d s.value := by rw [hv, insertField_mod_two_pow]

/-- R113: no byte outside the window and no header bit outside the field changes. -/
theorem set_changes_only_field (hn : op.Names s d) (h : exec (op.command .set) s = .next t) (he : t.status.err = false) :
    (∀ a, (a < s.base + 4 * d.q ∨ s.base + 4 * d.q + 4 * nq d.w ≤ a) → Memory.read t.mem a = Memory.read s.mem a) ∧
    ∀ b, (b < 32 * d.q + d.o ∨ 32 * d.q + d.o + d.w ≤ b) → t.headerBit b = s.headerBit b := by
  obtain ⟨⟨-, hd, -⟩, rfl⟩ := (exec_command_iff hn .set).mp ⟨h, he⟩
  refine ⟨fun a ha => ?_, fun b hb => State.headerBit_insert_outside (beginCommand _ s) hd _ hb⟩
  refine read_insertField_outside s.mem s.base d s.value a ?_
  unfold Desc.firstByte Desc.windowBytes
  omega

/-- A SET that ends with an error leaves M; one that ends without has inserted VALUE in a row of its table. -/
theorem exec_set_eq_next {fmt fid : Nat} (h : exec (.set fmt fid) s = .next t) :
    s.cfg.wf = true ∧ ((∃ e, t = raiseError e (beginCommand (encode (.set fmt fid)) s)) ∨
      ∃ d, FieldIs s fmt fid d ∧ t = (beginCommand (encode (.set fmt fid)) s).insert d s.value) := by
  rw [exec_eq] at h
  obtain ⟨hc, hok | ⟨e, -, rfl⟩⟩ := runCommand_eq_next.mp h
  · obtain ⟨d, hd, hwrite⟩ := bind_eq_ok.mp hok
    exact ⟨hc, .inr ⟨d, resolve_eq_ok.mp hd, (writeField_eq_ok.mp hwrite).2⟩⟩
  · exact ⟨hc, .inl ⟨e, rfl⟩⟩

/-- Two fields of one format share no header bit. -/
theorem FieldIs.disjoint {fmt fid fid' : Nat} {e : Desc} (hc : s.cfg.wf = true) (hd : FieldIs s fmt fid d)
    (he : FieldIs s fmt fid' e) (hne : fid' ≠ fid) : d.disjoint e = true := by
  obtain ⟨F, hF, hd⟩ := hd
  obtain ⟨F', hF', he⟩ := he
  obtain rfl : F = F' := Option.some.inj (hF.symm.trans hF')
  obtain ⟨-, -, -, -, hpair, -⟩ := Format.wf_iff.mp (Config.record_wf hc hF)
  exact pairwiseDisjoint_rows hpair hne.symm hd he

/-! ## The table form and the inline form -/

/-- CMD holds another word, and nothing else differs. -/
def State.setCmd (c : Word) (s : State) : State := { s with cmd := c }

/-- The outcome but for the word CMD holds. -/
def outcomeWithCmd (c : Word) : Host.Outcome State Fault Refusal → Host.Outcome State Fault Refusal
  | .next t => .next (t.setCmd c)
  | .fault r => .fault r
  | .refused r => .refused r

/-- No check and no effect of a field command looks at CMD. -/
theorem FieldAction.run_setCmd (a : FieldAction) (c : Word) (d : Desc) (s : State) :
    a.run d (s.setCmd c) = State.setCmd c <$> a.run d s := by
  cases a <;> simp only [FieldAction.run, readField, writeField, map_bind, map_pure] <;> rfl

/-- The error procedure takes from CMD only whether the command writes RESULT. -/
theorem raiseError_beginCommand {c c' : Word} (h : writesResult c' = writesResult c) (e : ErrCode) (s : State) :
    raiseError e (beginCommand c' s) = (raiseError e (beginCommand c s)).setCmd c' := by
  simp only [raiseError, beginCommand_cmd, h]
  rfl

/-- One rule that does not look at CMD ends alike under two words that agree on writing RESULT. -/
theorem runCommand_eq_outcomeWithCmd {c c' : Word} {body : State → Except Stop State}
    (hbody : ∀ t, body (t.setCmd c') = State.setCmd c' <$> body t)
    (hresult : s.cfg.wf = true → writesResult c' = writesResult c) :
    runCommand c' body s = outcomeWithCmd c' (runCommand c body s) := by
  have hbegin : body (beginCommand c' s) = State.setCmd c' <$> body (beginCommand c s) := hbody (beginCommand c s)
  unfold runCommand
  by_cases hc : s.cfg.wf = true
  · rw [if_pos hc, if_pos hc, hbegin]
    rcases body (beginCommand c s) with (e | r) | t
    · exact congrArg Host.Outcome.next (raiseError_beginCommand (hresult hc) e s)
    · rfl
    · rfl
  · rw [if_neg hc, if_neg hc]
    rfl

/-- The command of an operand that names a field is well-formed, if the descriptor is encodable. -/
theorem FieldOperand.Names.command_wf (hc : s.cfg.wf = true) (hn : op.Names s d) (hd : d.wf = true) (hq : d.q ≤ 15)
    (a : FieldAction) : (op.command a).wf = true := by
  cases op with
  | table fmt fid =>
    obtain ⟨F, hF, hrow⟩ := hn
    obtain ⟨-, -, hlen, -⟩ := Format.wf_iff.mp (Config.record_wf hc hF)
    have hfmt : fmt < 4 := FormatRom.record_lt hF
    obtain ⟨hfid, -⟩ := List.getElem?_eq_some_iff.mp hrow
    cases a <;> simp only [FieldOperand.command, Instr.wf, Bool.and_eq_true, decide_eq_true_eq] <;> omega
  | inline e =>
    obtain rfl : e = d := hn
    obtain ⟨-, hw, ho, -⟩ := (Desc_wf_iff e).mp hd
    cases a <;> simp only [FieldOperand.command, Instr.wf, Bool.and_eq_true, decide_eq_true_eq] <;> omega

/-- Both forms of an action write RESULT, or neither does. -/
theorem FieldOperand.writesResult_command {op op' : FieldOperand} {a : FieldAction} (h : (op.command a).wf = true)
    (h' : (op'.command a).wf = true) : writesResult (encode (op'.command a)) = writesResult (encode (op.command a)) := by
  rw [writesResult, writesResult, (Laws.OwnOpcode.statement_all _ h).1, (Laws.OwnOpcode.statement_all _ h').1]
  cases op <;> cases op' <;> cases a <;> rfl

/-- R115: the two forms run one rule, so they end alike but for the word CMD holds. -/
theorem exec_inline_eq_exec_table {fmt fid : Nat} (hf : FieldIs s fmt fid d) (hq : d.q ≤ 15) (a : FieldAction) :
    exec ((FieldOperand.inline d).command a) s =
      outcomeWithCmd (encode ((FieldOperand.inline d).command a)) (exec ((FieldOperand.table fmt fid).command a) s) := by
  have htable : (FieldOperand.table fmt fid).Names s d := hf
  have hinline : (FieldOperand.inline d).Names s d := rfl
  rw [exec_command hinline, exec_command htable]
  refine runCommand_eq_outcomeWithCmd (fun t => ?_) (fun hc => ?_)
  · rw [FieldAction.run_setCmd, map_bind]
  · exact FieldOperand.writesResult_command (htable.command_wf hc (hf.wf hc) hq a) (hinline.command_wf hc (hf.wf hc) hq a)

end

/-! ## The statements -/

/-- Settles O27: the value's bits are the field's header bits, and an insertion's effect is known for every header bit. -/
theorem fieldsArePackedMostSignificantBitFirst : Obligations.FieldsArePackedMostSignificantBitFirst := by
  refine fun s d v hd => ⟨?_, fun j hj => ?_, fun b hb => s.headerBit_insert_outside hd v hb⟩
  · rw [← Nat.mod_eq_of_lt (s.fieldValue_lt d), mod_two_pow_eq_sum_testBit]
    refine sum_congr rfl fun j hj => ?_
    have hj : j < d.w := mem_range.mp hj
    have hbit : d.firstBit + (d.w - 1 - (d.w - 1 - j)) = 32 * d.q + d.o + j := by unfold Desc.firstBit; omega
    rw [s.fieldValue_testBit hd, hbit, decide_eq_true (by omega), Bool.true_and]
  · have hin : d.firstBit ≤ d.firstBit + j ∧ d.firstBit + j < d.firstBit + d.w := by omega
    exact (s.headerBit_insert hd v (d.firstBit + j)).trans (by rw [if_pos hin, Nat.add_sub_cancel_left])

/-- Settles O28: Extract masks to w bits, and RESULT holds what it answers. -/
theorem extractedValueFitsItsWidth : Obligations.ExtractedValueFitsItsWidth :=
  ⟨State.fieldValue_lt, fun _ _ fmt fid _ h he hd => get_result_lt (op := .table fmt fid) hd h he,
    fun _ _ q o w h he => get_result_lt (op := .inline ⟨q, o, w⟩) rfl h he⟩

/-- Settles O29: the value read back is VALUE modulo 2^w, which is VALUE. -/
theorem setThenGetReturnsTheValue : Obligations.SetThenGetReturnsTheValue := by
  refine ⟨fun s t fmt fid d h he hd hv => ?_, fun s t q o w h he hv => ?_⟩
  · rw [← Nat.mod_eq_of_lt hv]
    exact exists_get_of_set (op := .table fmt fid) hd h he
  · rw [← Nat.mod_eq_of_lt hv]
    exact exists_get_of_set (op := .inline ⟨q, o, w⟩) rfl h he

/-- Settles O30: Insert takes the low w bits of VALUE only. -/
theorem setTruncatesTheValue : Obligations.SetTruncatesTheValue :=
  ⟨fun _ _ _ _ fmt fid _ h he hd hv =>
      ⟨exists_set_of_value_mod (op := .table fmt fid) hd h he hv, exists_get_of_set (op := .table fmt fid) hd h he⟩,
    fun _ _ _ _ q o w h he hv =>
      ⟨exists_set_of_value_mod (op := .inline ⟨q, o, w⟩) rfl h he hv,
        exists_get_of_set (op := .inline ⟨q, o, w⟩) rfl h he⟩⟩

/-- Settles O32: an insertion leaves every header bit outside its field, and the fields of a format are disjoint. -/
theorem disjointFieldsDoNotInterfere : Obligations.DisjointFieldsDoNotInterfere := by
  refine ⟨fun s d1 d2 v h1 h2 h => ?_, fun s t fmt fid fid' d' h hne hd' => ?_⟩
  · exact s.fieldValue_insert_of_disjoint h1 h2 (disjoint_of_no_common_bit h1 h2 h) v
  · obtain ⟨hc, ⟨e, rfl⟩ | ⟨d, hd, rfl⟩⟩ := exec_set_eq_next h
    · rfl
    · exact State.fieldValue_insert_of_disjoint (beginCommand _ s) (hd.wf hc) (hd'.wf hc) (hd.disjoint hc hd' hne) _

/-- Settles O33: SET and SETD end with one Insert, which writes its window and keeps the bits around the field. -/
theorem setChangesOnlyItsField : Obligations.SetChangesOnlyItsField :=
  ⟨fun _ _ fmt fid _ h he hd => set_changes_only_field (op := .table fmt fid) hd h he,
    fun _ _ q o w h he => set_changes_only_field (op := .inline ⟨q, o, w⟩) rfl h he⟩

/-- Settles O35: the inline form's check passes for a table's row, and from there both forms run the same rule. -/
theorem tableAndInlineFormsAgree : Obligations.TableAndInlineFormsAgree := by
  intro s fmt fid d hf hq
  constructor
  · refine (exec_inline_eq_exec_table hf hq .get).trans ?_
    change outcomeWithCmd _ (exec (.get fmt fid) s) = _
    cases exec (.get fmt fid) s <;> rfl
  · refine (exec_inline_eq_exec_table hf hq .set).trans ?_
    change outcomeWithCmd _ (exec (.set fmt fid) s) = _
    cases exec (.set fmt fid) s <;> rfl

end Sys2Proof.Machine
end

section
/-! PROOFS. The statements about INIT and ISVALID (41_format_ops.md R146 to R149, R151, R152). What the two rules do is said
first, once: INIT ends well exactly over a ready view that covers the header of a present format; ISVALID
ends over every ready view of one, and VALID is its verdict. -/

/-! ## Equal bytes are equal memories -/

namespace Sys2Proof.Machine.Memory

/-- A memory in canonical form lists exactly the bytes that do not read as an unlisted address does. -/
theorem mem_iff_read {m : Memory} (hm : wf m) {c : Host.Cell} : c ∈ m ↔ read m c.1 = c.2 ∧ c.2 ≠ unlisted c.1 := by
  induction m with
  | nil => simp [eq_comm]
  | cons e m ih =>
    obtain ⟨hsort, hlisted⟩ := hm
    obtain ⟨hlt, hrest⟩ := List.pairwise_cons.mp hsort
    obtain ⟨k, b⟩ := e
    obtain ⟨a, v⟩ := c
    have ih := ih ⟨hrest, fun x hx => hlisted x (List.mem_cons_of_mem _ hx)⟩
    have hb : b ≠ unlisted k := hlisted (k, b) List.mem_cons_self
    rw [List.mem_cons, ih, read_cons]
    by_cases hk : k = a
    · subst hk
      have hnot : read m k = unlisted k := read_of_not_listed fun x hx => (hlt x hx).ne'
      rw [if_pos rfl, Prod.mk.injEq, hnot]
      constructor
      · rintro (⟨-, rfl⟩ | ⟨hv, hne⟩)
        · exact ⟨rfl, hb⟩
        · exact absurd hv.symm hne
      · rintro ⟨rfl, -⟩
        exact .inl ⟨rfl, rfl⟩
    · rw [if_neg hk, Prod.mk.injEq]
      simp [Ne.symm hk]

/-- Two memories in canonical form with the same bytes are the same list. -/
theorem eq_of_read_eq {m m' : Memory} (hm : wf m) (hm' : wf m') (h : ∀ a, read m a = read m' a) : m = m' := by
  have nodup {l : Memory} (hl : wf l) : l.Nodup := hl.1.imp fun hlt heq => hlt.ne (congrArg Prod.fst heq)
  have hperm : m.Perm m' := (List.perm_ext_iff_of_nodup (nodup hm) (nodup hm')).mpr fun c => by
    rw [mem_iff_read hm, mem_iff_read hm', h]
  exact hperm.eq_of_pairwise (fun c d _ _ hcd hdc => absurd hdc hcd.asymm) hm.1 hm'.1

end Sys2Proof.Machine.Memory

namespace Sys2Proof.Machine

/-! ## Runs without an error, and the checks of the view -/

/-- A rule that ends well from where Execute starts it leaves ERR clear. -/
theorem ruleOf_noError {i : Instr} {c : Word} {s t : State} (h : ruleOf i (beginCommand c s) = .ok t) :
    t.status.err = false := by
  obtain ⟨rfl, -⟩ | ⟨fmt, F, -, -, -, rfl⟩ | ⟨d, -, rfl, -⟩ | ⟨d, -, rfl, -⟩ | ⟨fmt, F, -, -, -, -, -, rfl⟩ :=
    ruleOf_eq_ok h <;> rfl

/-- A command ends without an error exactly when its rule ends well. -/
theorem exec_noError_iff {i : Instr} {s t : State} :
    (exec i s = .next t ∧ t.status.err = false) ↔
      s.cfg.wf = true ∧ ruleOf i (beginCommand (encode i) s) = .ok t := by
  rw [exec_eq, runCommand_eq_next]
  constructor
  · rintro ⟨⟨hc, hok | ⟨e, -, rfl⟩⟩, herr⟩
    · exact ⟨hc, hok⟩
    · cases herr
  · rintro ⟨hc, hok⟩
    exact ⟨⟨hc, .inl hok⟩, ruleOf_noError hok⟩

theorem findFormat_eq_error {s : State} {fmt : Nat} {st : Stop} :
    findFormat s fmt = .error st ↔ s.record fmt = none ∧ st = .raised .format := by
  unfold findFormat
  cases s.record fmt <;> simp [eq_comm]

theorem checkPlain_eq_error {s : State} {st : Stop} :
    checkPlain s = .error st ↔ viewPlain s = false ∧ st = .refused .viewNotPlain := by
  cases h : viewPlain s <;> simp [checkPlain, h, eq_comm]

theorem bufferReady_iff {s : State} :
    BufferReady s ↔ s.cfg.wf = true ∧ baseOk s = true ∧ viewFits s = true ∧ viewPlain s = true := by
  rw [baseOk_iff, viewFits_iff]
  exact ⟨fun ⟨hc, hb, hf, hp⟩ => ⟨hc, hb, hf, hp⟩, fun ⟨hc, hb, hf, hp⟩ => ⟨hc, hb, hf, hp⟩⟩

/-- Execute has written CMD and STATUS over what they held, so no run depends on it (30_encoding.md R80). -/
theorem exec_withCmdStatus (i : Instr) (s : State) (c : Word) (st : Status) :
    exec i { s with cmd := c, status := st } = exec i s := by
  rw [exec_eq, exec_eq]
  rfl

section
variable {s t : State} {fmt : Nat} {F : Format}

/-! ## INIT -/

theorem ruleOf_init_eq_ok :
    ruleOf (.init fmt) s = .ok t ↔ ∃ F, s.record fmt = some F ∧ (baseOk s = true ∧ viewFits s = true) ∧
      F.hlen ≤ s.len ∧ viewPlain s = true ∧ t = s.setMem (initHeader s.mem s.base F) := by
  simp only [ruleOf, bind_eq_ok, findFormat_eq_ok, checkView_eq_ok, require_eq_ok, checkPlain_eq_ok, pure, Except.pure,
    Except.ok.injEq, exists_const, decide_eq_true_eq, eq_comm (b := t)]

/-- What INIT leaves: CMD its word, STATUS clear, and the header in M. -/
def afterInit (fmt : Nat) (F : Format) (s : State) : State :=
  (beginCommand (encode (.init fmt)) s).setMem (initHeader s.mem s.base F)

/-- INIT raises no error exactly over a ready view that covers the header of a present format. -/
theorem exec_init_iff :
    (exec (.init fmt) s = .next t ∧ t.status.err = false) ↔
      ∃ F, s.record fmt = some F ∧ BufferReady s ∧ F.hlen ≤ s.len ∧ t = afterInit fmt F s := by
  rw [exec_noError_iff, ruleOf_init_eq_ok]
  simp only [bufferReady_iff]
  constructor
  · rintro ⟨hc, F, hF, ⟨hb, hf⟩, hl, hp, rfl⟩
    exact ⟨F, hF, ⟨hc, hb, hf, hp⟩, hl, rfl⟩
  · rintro ⟨F, hF, ⟨hc, hb, hf, hp⟩, hl, rfl⟩
    exact ⟨hc, F, hF, ⟨hb, hf⟩, hl, hp, rfl⟩

/-- INIT leaves a ready view ready: it changes no operand and no configuration. -/
theorem BufferReady.afterInit (hr : BufferReady s) (fmt : Nat) (F : Format) : BufferReady (afterInit fmt F s) :=
  ⟨hr.config, hr.base, hr.fits, hr.plain⟩

theorem Format.stamps_fit (hF : F.wf = true) : ∀ st ∈ F.stamps, F.fits st.fid st.k = true := by
  obtain ⟨-, -, -, -, -, hst, -⟩ := Format.wf_iff.mp hF
  exact hst

/-- A field of the header INIT leaves holds the constant of its last stamp, or 0. -/
theorem fieldValue_afterInit (hF : F.wf = true) {fid : Nat} {d : Desc} (hd : F.fields[fid]? = some d) (fmt : Nat)
    (s : State) : (afterInit fmt F s).fieldValue d = (lastStamp F fid).getD 0 := by
  refine (extract_applyStamps hF (Format.stamps_fit hF) s.base _ hd).trans ?_
  rw [extract_zeroHeader hF s.mem s.base hd]
  rfl

/-- Every window of a table lies inside a view that covers the header. -/
theorem Format.window_le_hlen (hF : F.wf = true) {fid : Nat} {d : Desc} (hd : F.fields[fid]? = some d) :
    d.firstByte + d.windowBytes ≤ F.hlen := by
  obtain ⟨-, hfit⟩ := Format.row_wf hF hd
  unfold Desc.firstByte Desc.windowBytes Format.hlen
  omega

/-- Over a ready view that covers the header a GET of any field of the format completes with the field's value. -/
theorem exists_get_of_bufferReady (hr : BufferReady s) (hF : s.record fmt = some F) (hl : F.hlen ≤ s.len) {fid : Nat}
    {d : Desc} (hd : F.fields[fid]? = some d) :
    ∃ u, exec (.get fmt fid) s = .next u ∧ u.status.err = false ∧ u.result.toNat = s.fieldValue d := by
  have hwf := Config.record_wf hr.config hF
  obtain ⟨hdwf, -⟩ := Format.row_wf hwf hd
  obtain ⟨hc, hb, hf, hp⟩ := bufferReady_iff.mp hr
  have hbounds : inBounds s d = true := inBounds_iff.mpr ((Format.window_le_hlen hwf hd).trans hl)
  obtain ⟨u, hget, herr, hu⟩ := exists_get_of_ready (op := .table fmt fid) ⟨F, hF, hd⟩ ⟨hc, hdwf, hb, hf, hbounds, hp⟩
  refine ⟨u, hget, herr, ?_⟩
  obtain ⟨-, hw, -⟩ := (Desc_wf_iff d).mp hdwf
  rw [hu, BitVec.toNat_ofNat]
  exact Nat.mod_eq_of_lt ((s.fieldValue_lt d).trans_le (Nat.pow_le_pow_right (by decide) hw))

/-- A second INIT leaves every byte as the first did: the header does not depend on what M held, the rest is not written. -/
theorem read_initHeader_initHeader (hF : F.wf = true) (m : Memory) (base a : Nat) :
    Memory.read (initHeader (initHeader m base F) base F) a = Memory.read (initHeader m base F) a := by
  by_cases ha : base ≤ a ∧ a < base + F.hlen
  · exact read_initHeader_inside hF ha _ _
  · exact read_initHeader_outside hF ha _

/-! ## ISVALID -/

theorem ruleOf_isvalid_eq_ok :
    ruleOf (.isvalid fmt) s = .ok t ↔ ∃ F, s.record fmt = some F ∧ (baseOk s = true ∧ viewFits s = true) ∧
      viewPlain s = true ∧ t = if verdict s F then s.setStatus Status.accepted else s := by
  simp only [ruleOf, bind_eq_ok, findFormat_eq_ok, checkView_eq_ok, checkPlain_eq_ok, pure, Except.pure,
    Except.ok.injEq, exists_const, eq_comm (b := t)]

theorem stage1_iff : stage1 s F = true ↔ 4 * F.n ≤ s.len := decide_eq_true_iff

theorem stage2_iff : stage2 s F = true ↔ ClaimAtMost s F s.len := by
  unfold stage2 ClaimAtMost
  cases F.lenrule <;> simp

theorem checks_all_iff : F.checks.all (holds s F) = true ↔ ChecksHold s F := by
  rw [List.all_eq_true]
  refine forall₂_congr fun ch _ => ?_
  cases ch with
  | eqConst fid k => exact decide_eq_true_iff
  | inRange fid lo hi => simp [holds]
  | exclusive a b => simp [holds, or_iff_not_imp_left]

/-- The pipeline of ISVALID decides acceptance. -/
theorem verdict_iff : verdict s F = true ↔ Accepts s F := by
  rw [verdict, Bool.and_eq_true, Bool.and_eq_true, stage1_iff, stage2_iff, checks_all_iff, and_assoc, Accepts]

/-- Over a ready view of a present format ISVALID completes, writes CMD and STATUS, and VALID is its verdict. -/
theorem exec_isvalid_of_ready (hr : BufferReady s) (hF : s.record fmt = some F) :
    exec (.isvalid fmt) s = .next { s with cmd := encode (.isvalid fmt), status := ⟨false, verdict s F, 0⟩ } := by
  obtain ⟨hc, hb, hf, hp⟩ := bufferReady_iff.mp hr
  rw [exec_eq]
  refine runCommand_of_ok hc (ruleOf_isvalid_eq_ok.mpr ⟨F, hF, ⟨hb, hf⟩, hp, ?_⟩)
  change _ = if verdict s F then _ else _
  cases verdict s F <;> rfl

theorem exec_isvalid_of_accepts (hr : BufferReady s) (hF : s.record fmt = some F) (ha : Accepts s F) :
    exec (.isvalid fmt) s = .next { s with cmd := encode (.isvalid fmt), status := ⟨false, true, 0⟩ } := by
  rw [exec_isvalid_of_ready hr hF, verdict_iff.mpr ha]

theorem exec_isvalid_of_not_accepts (hr : BufferReady s) (hF : s.record fmt = some F) (ha : ¬Accepts s F) :
    exec (.isvalid fmt) s = .next { s with cmd := encode (.isvalid fmt), status := ⟨false, false, 0⟩ } := by
  rw [exec_isvalid_of_ready hr hF, Bool.eq_false_iff.mpr (mt verdict_iff.mp ha)]

/-- ISVALID has no check of bounds: what it can raise is E_FORMAT, E_NULL_BASE or E_VIEW. -/
theorem ruleOf_isvalid_raised {e : ErrCode} (h : ruleOf (.isvalid fmt) s = .error (.raised e)) : e ≠ .bounds := by
  obtain hformat | ⟨F, -, h⟩ := bind_eq_error.mp h
  · obtain ⟨-, hst⟩ := findFormat_eq_error.mp hformat
    cases hst
    decide
  obtain hview | ⟨-, -, h⟩ := bind_eq_error.mp h
  · obtain ⟨-, hst⟩ | ⟨-, -, hst⟩ := checkView_eq_error.mp hview <;> cases hst <;> decide
  obtain hplain | ⟨-, -, h⟩ := bind_eq_error.mp h
  · obtain ⟨-, hst⟩ := checkPlain_eq_error.mp hplain
    cases hst
  · cases h

theorem ErrCode.code_eq_eight {e : ErrCode} : e.code = 8 ↔ e = .bounds := by
  cases e <;> decide

/-- ISVALID, with or without an error, writes CMD and STATUS and nothing else. -/
theorem exec_isvalid_eq_next (hfmt : fmt < 16) (h : exec (.isvalid fmt) s = .next t) :
    ∃ st, t = { s with cmd := encode (.isvalid fmt), status := st } := by
  have hop : opField (encode (.isvalid fmt)) = 4 := (Laws.OwnOpcode.isvalid fmt (by simpa [Instr.wf] using hfmt)).1
  rw [exec_eq] at h
  obtain ⟨-, hok | ⟨e, -, rfl⟩⟩ := runCommand_eq_next.mp h
  · obtain ⟨F, -, -, -, rfl⟩ := ruleOf_isvalid_eq_ok.mp hok
    split <;> exact ⟨_, rfl⟩
  · have hw : writesResult (encode (.isvalid fmt)) = false := by simp [writesResult, hop]
    refine ⟨Status.ofError e, ?_⟩
    simp only [raiseError, beginCommand_cmd, hw]
    rfl

end

/-! ## The default CVF record -/

/-- The header INIT leaves for the CVF record, whatever the CVF parameters, passes every check (10_state.md R46 to R48). -/
theorem accepts_afterInit_cvf {k : CvfConstants} (hF : (cvfRecord k).wf = true) {s : State} (hl : 24 ≤ s.len) (fmt : Nat) :
    Accepts (afterInit fmt (cvfRecord k) s) (cvfRecord k) := by
  have hv : ∀ fid < 20, (afterInit fmt (cvfRecord k) s).fieldValue (Format.row (cvfRecord k) fid) =
      (lastStamp (cvfRecord k) fid).getD 0 :=
    fun fid hfid => fieldValue_afterInit hF (Format.getElem?_row hfid) fmt s
  refine ⟨hl, fun r hr => ?_, fun ch hch => ?_⟩
  · obtain rfl : ⟨14, 1, 24⟩ = r := Option.some.inj hr
    rw [hv 14 (by decide)]
    exact hl
  · simp only [cvfRecord, List.mem_cons, List.not_mem_nil, or_false] at hch
    rcases hch with rfl | rfl | rfl | rfl | rfl | rfl | rfl | rfl
    on_goal 5 => exact ⟨Nat.zero_le _, (hv 12 (by decide)).trans_le (Nat.zero_le _)⟩
    all_goals exact hv _ (by decide)

/-! ## The statements -/

/-- Settles O38: the checks INIT passed let a GET complete, and a field of its header holds the last stamp or 0. -/
theorem initLeavesStampsAndZeros : Obligations.InitLeavesStampsAndZeros := by
  intro s t fmt F hF h herr
  obtain ⟨F', hF', hr, hl, rfl⟩ := exec_init_iff.mp ⟨h, herr⟩
  obtain rfl : F = F' := Option.some.inj (hF.symm.trans hF')
  have hwf := Config.record_wf hr.config hF
  refine ⟨fun fid d hd => ?_, fun a ha => read_initHeader_outside hwf (by unfold Format.hlen; omega) s.mem⟩
  rw [← fieldValue_afterInit hwf hd fmt s]
  exact exists_get_of_bufferReady (hr.afterInit fmt F) hF hl hd

/-- Settles O39: the header INIT writes does not depend on M, and it meets the CVF record's checks. -/
theorem initIsIdempotentAndItsHeaderIsValid : Obligations.InitIsIdempotentAndItsHeaderIsValid := by
  refine ⟨fun s t fmt h herr => ?_, fun s hr hrom hl => ?_⟩
  · obtain ⟨F, hF, hr, hl, rfl⟩ := exec_init_iff.mp ⟨h, herr⟩
    have hread := read_initHeader_initHeader (Config.record_wf hr.config hF) s.mem s.base
    obtain ⟨hinit, herr'⟩ := (exec_init_iff (s := afterInit fmt F s)).mpr ⟨F, hF, hr.afterInit fmt F, hl, rfl⟩
    refine ⟨_, hinit, herr', hread, fun hm => ?_⟩
    have hm1 := initHeader_wf hm s.base F
    exact Memory.eq_of_read_eq (initHeader_wf hm1 s.base F) hm1 hread
  · have hF : s.record 2 = some (cvfRecord CvfConstants.default) := by
      rw [State.record, hrom]
      rfl
    obtain ⟨hinit, herr⟩ := exec_init_iff.mpr ⟨_, hF, hr, hl, rfl⟩
    have haccepts := accepts_afterInit_cvf (Config.record_wf hr.config hF) hl 2
    exact ⟨_, _, hinit, herr, exec_isvalid_of_accepts (hr.afterInit 2 _) hF haccepts, rfl⟩

/-- Settles O41: no check of ISVALID raises E_BOUNDS, and every window of a table lies inside the header. -/
theorem isvalidNeverRaisesBounds : Obligations.IsvalidNeverRaisesBounds := by
  refine ⟨fun s t fmt h => ?_, fun s fmt F hc hF hl fid _ d hd a ha => ?_⟩
  · rw [exec_eq] at h
    obtain ⟨-, hok | ⟨e, he, rfl⟩⟩ := runCommand_eq_next.mp h
    · obtain ⟨F, -, -, -, rfl⟩ := ruleOf_isvalid_eq_ok.mp hok
      split <;> exact (by decide : (0 : BitVec 4) ≠ 8)
    · exact mt ErrCode.code_eq_eight.mp (ruleOf_isvalid_raised he)
  · have hfit : d.firstByte + d.windowBytes ≤ 4 * F.n := Format.window_le_hlen (Config.record_wf hc hF) hd
    obtain ⟨hlow, hhigh⟩ := ha
    exact ⟨by omega, by omega⟩

/-- Settles O42: ISVALID changes CMD and STATUS only, which the second ISVALID overwrites before its rule runs. -/
theorem isvalidIsRepeatable : Obligations.IsvalidIsRepeatable := by
  intro s t fmt hfmt h
  obtain ⟨st, rfl⟩ := exec_isvalid_eq_next hfmt h
  exact ⟨rfl, rfl, _, (exec_withCmdStatus _ s _ st).trans h, rfl⟩

/-- Settles O43: HLEN bytes pass stage S1, and one byte fewer does not. -/
theorem validityBoundaryIsTheHeaderLength : Obligations.ValidityBoundaryIsTheHeaderLength := by
  intro s fmt F hr hF
  refine ⟨fun hl hch hclaim => exec_isvalid_of_accepts hr hF ⟨hl.ge, hl ▸ hclaim, hch⟩, fun hl => ?_⟩
  refine exec_isvalid_of_not_accepts hr hF fun ⟨hlen, _⟩ => ?_
  obtain ⟨hn, -⟩ := Format.wf_iff.mp (Config.record_wf hr.config hF)
  omega

/-- Settles O44: such a claim fails stage S2. -/
theorem lengthClaimPastTheBufferIsRejected : Obligations.LengthClaimPastTheBufferIsRejected := by
  intro s fmt F r hr hF hrule hclaim
  exact exec_isvalid_of_not_accepts hr hF fun ⟨_, hatMost, _⟩ => (hatMost r hrule).not_gt hclaim

end Sys2Proof.Machine
end

section
/-! PROOFS. The statement about NOP (42_nop.md R170). NOP's rule does nothing, so its run ends where Execute starts it; of the
words with OP 0 only the word 0 decodes, and every other one raises E_RSVD. -/

namespace Sys2Proof

theorem decodeWord_zero : decodeWord 0 = .ok .nop := by
  rw [decodeWord_op0 (by decide), if_pos (by decide)]

/-- Every bit of a word with OP 0 below OP is reserved (30_encoding.md R85). -/
theorem decodeWord_op0_reserved {c : Word} (hop : opField c = 0) (h0 : c ≠ 0) : decodeWord c = .error .reservedBits := by
  have hlow : bitField c 27 0 ≠ 0 := by
    intro hz
    refine h0 (BitVec.eq_of_toNat_eq (?_ : c.toNat = 0))
    have hc := c.isLt
    simp only [opField, bitField] at hop hz
    omega
  rw [decodeWord_op0 hop, if_neg hlow]

end Sys2Proof

namespace Sys2Proof.Machine

theorem executeWord_of_decodes {c : Word} {i : Instr} (hd : decodeWord c = .ok i) (s : State) :
    executeWord c s = exec i s := by
  simp only [executeWord, hd]

theorem executeWord_of_decodeError {c : Word} {e : DecodeError} {s : State} (hc : s.cfg.wf = true)
    (hd : decodeWord c = .error e) : executeWord c s = .next (raiseError (DecodeError.errCode e) (beginCommand c s)) := by
  rw [executeWord_eq]
  exact runCommand_of_raised hc (by simp only [wordRule, hd])

/-- NOP ends where Execute starts it: its word in CMD, STATUS clear. -/
theorem exec_nop {s : State} (hc : s.cfg.wf = true) : exec .nop s = .next (beginCommand (encode .nop) s) := by
  rw [exec_eq]
  exact runCommand_of_ok hc rfl

/-- An error leaves RESULT unless the word is a GET's or a GETD's (60_exceptions.md R181). -/
theorem raiseError_of_keeps_result {s : State} (h : writesResult s.cmd = false) (e : ErrCode) :
    raiseError e s = s.setStatus (Status.ofError e) := by
  simp [raiseError, h, State.setStatus]

/-- Settles O22: the word 0 decodes to NOP, whose rule does nothing, and OP 0 with another bit set does not decode. -/
theorem nopOnlyClearsStatus : Obligations.NopOnlyClearsStatus := by
  refine ⟨fun s hc => exec_nop hc, fun s rest hc hin => ?_, fun s c rest hc hin hhigh h0 => ?_⟩
  · rw [step_cmd hc hin, executeWord_of_decodes decodeWord_zero]
    exact exec_nop hc
  · have hop : opField c = 0 := by rw [opField, bitField, hhigh, Nat.zero_mod]
    have hkeeps : writesResult c = false := writesResult_eq_false (by omega) (by omega)
    rw [step_cmd hc hin, executeWord_of_decodeError (s := { s with inbox := rest }) hc (decodeWord_op0_reserved hop h0),
      raiseError_of_keeps_result hkeeps]
    rfl

end Sys2Proof.Machine
end

section
/-! PROOFS. The statements about the errors of a word, a format, a field id and an inline descriptor (60_exceptions.md R182 to
R186). That an error leaves what R181 writes is said first, once; each statement then names the check that raises, which is in
every case the first one of the rule that fails. -/

namespace Sys2Proof

/-! ## The fields of a word as arithmetic -/

theorem opField_eq_div (c : Word) : opField c = c.toNat / 2 ^ 28 := by
  have hc := c.isLt
  simp only [opField, bitField]
  omega

theorem bitField_zero (c : Word) (hi : Nat) : bitField c hi 0 = c.toNat % 2 ^ (hi + 1) := by
  rw [bitField, pow_zero, Nat.div_one, Nat.sub_zero]

end Sys2Proof

namespace Sys2Proof.Machine

/-! ## What an error leaves -/

/-- The error procedure, run where Execute starts a rule, leaves what R181 gives. -/
theorem raiseError_eq_afterError (c : Word) (e : ErrCode) (s : State) :
    raiseError e (beginCommand c s) = afterError c e s := by
  simp [raiseError, beginCommand, afterError, writesResult, Status.ofError]

/-- A CMD write of a word that does not decode raises the decoder's error (30_encoding.md R88). -/
theorem step_of_decodeError {s : State} {c : Word} {rest : List BusOp} {e : DecodeError} (hc : s.cfg.wf = true)
    (hin : s.inbox = .regWrite 0x08 .word c :: rest) (hd : decodeWord c = .error e) :
    step s = .next (afterError c (DecodeError.errCode e) { s with inbox := rest }) := by
  rw [step_cmd hc hin, executeWord_of_decodeError (s := { s with inbox := rest }) hc hd, raiseError_eq_afterError]

theorem exec_of_raised {s : State} {i : Instr} {e : ErrCode} (hc : s.cfg.wf = true)
    (h : ruleOf i (beginCommand (encode i) s) = .error (.raised e)) : exec i s = .next (afterError (encode i) e s) := by
  rw [exec_eq, runCommand_of_raised hc h, raiseError_eq_afterError]

/-- Whether an error zeroes RESULT shows in the command itself: its word carries its opcode. -/
theorem exec_of_raised_of_wf {s : State} {i : Instr} {e : ErrCode} (hc : s.cfg.wf = true) (hi : i.wf = true)
    (h : ruleOf i (beginCommand (encode i) s) = .error (.raised e)) :
    exec i s = .next
      { s with
        cmd := encode i, status := Status.ofError e,
        result := if Laws.OwnOpcode.opcodeOf i = 1 ∨ Laws.OwnOpcode.opcodeOf i = 5 then 0 else s.result } := by
  obtain ⟨hop, -⟩ := Laws.OwnOpcode.statement_all i hi
  rw [exec_of_raised hc h, afterError, hop]
  rfl

/-! ## What raises -/

/-- A word with the cause of E_RSVD does not decode: its opcode is legal and its row's reserved bits are not all 0. -/
theorem decodeWord_of_rsvd_cause {c : Word} {s : State} (h : Cause c s .rsvd) : decodeWord c = .error .reservedBits := by
  obtain ⟨hop, hbits⟩ | ⟨hop | hop, hbits⟩ | ⟨hop | hop, hbits⟩ | ⟨hop | hop, hbits⟩ := h
  · rw [decodeWord_op0 hop, if_neg hbits]
  · rw [decodeWord_op1 hop, if_neg hbits]
  · rw [decodeWord_op2 hop, if_neg hbits]
  · rw [decodeWord_op3 hop, if_neg hbits]
  · rw [decodeWord_op4 hop, if_neg hbits]
  · rw [decodeWord_op5 hop, if_neg hbits]
  · rw [decodeWord_op6 hop, if_neg hbits]

theorem findField_eq_error {F : Format} {fid : Nat} {st : Stop} :
    findField F fid = .error st ↔ F.fields[fid]? = none ∧ st = .raised .field := by
  unfold findField
  cases F.fields[fid]? <;> simp [eq_comm]

theorem checkDesc_eq_error {d : Desc} {st : Stop} : checkDesc d = .error st ↔ ¬DescLegal d ∧ st = .raised .desc := by
  rw [checkDesc, require_eq_error, ← Bool.not_eq_true]
  simp [DescLegal, and_assoc]

section
variable {s : State} {i : Instr} {fmt fid : Nat} {F : Format}

/-- The four commands that name a format look it up before anything else. -/
theorem ruleOf_of_record_none (hi : i = .get fmt fid ∨ i = .set fmt fid ∨ i = .init fmt ∨ i = .isvalid fmt)
    (h : s.record fmt = none) : ruleOf i s = .error (.raised .format) := by
  have hfind : findFormat s fmt = .error (.raised .format) := findFormat_eq_error.mpr ⟨h, rfl⟩
  obtain rfl | rfl | rfl | rfl := hi <;> simp only [ruleOf, resolve, hfind, bind_error]

/-- GET and SET of a present format look the field up next. -/
theorem ruleOf_of_fields_length_le (hi : i = .get fmt fid ∨ i = .set fmt fid) (hF : s.record fmt = some F)
    (hfid : F.fields.length ≤ fid) : ruleOf i s = .error (.raised .field) := by
  have hformat : findFormat s fmt = .ok F := findFormat_eq_ok.mpr hF
  have hfield : findField F fid = .error (.raised .field) := findField_eq_error.mpr ⟨List.getElem?_eq_none hfid, rfl⟩
  obtain rfl | rfl := hi <;> simp only [ruleOf, resolve, hformat, hfield, bind_ok, bind_error]

/-- GETD and SETD check their descriptor before anything else. -/
theorem ruleOf_of_not_descLegal {q o w : Nat} (hi : i = .getd q o w ∨ i = .setd q o w) (h : ¬DescLegal ⟨q, o, w⟩) :
    ruleOf i s = .error (.raised .desc) := by
  have hcheck : checkDesc ⟨q, o, w⟩ = .error (.raised .desc) := checkDesc_eq_error.mpr ⟨h, rfl⟩
  obtain rfl | rfl := hi <;> simp only [ruleOf, hcheck, bind_error]

/-- Format codes 4 to 15 are absent (10_state.md R41). -/
theorem State.record_eq_none (s : State) (h : 4 ≤ fmt) : s.record fmt = none :=
  Option.eq_none_iff_forall_ne_some.mpr fun _ hF => h.not_gt (FormatRom.record_lt hF)

end

/-! ## The statements -/

/-- Settles O14: such a word's OP is 7 or more, which the decoder rejects, and RESULT is zeroed for OP 1 and 5 only. -/
theorem illegalOpcodeRaisesEOpcode : Obligations.IllegalOpcodeRaisesEOpcode := by
  intro s c rest hc hin hle
  have hop : 7 ≤ opField c := by rw [opField_eq_div]; omega
  rw [step_of_decodeError hc hin (decodeWord_illegal hop), afterError, if_neg (by omega)]
  rfl

/-- Settles O15: the reserved ranges are those of E_RSVD's cause, written as arithmetic, and such a word does not decode. -/
theorem reservedBitRaisesERsvd : Obligations.ReservedBitRaisesERsvd := by
  intro s c rest hc hin hbits
  have hcause : Cause c s .rsvd := by
    simp only [Cause, bitField_zero, opField_eq_div]
    exact hbits
  rw [step_of_decodeError hc hin (decodeWord_of_rsvd_cause hcause), afterError, opField_eq_div]
  rfl

/-- Settles O16: the look-up of the format is the first thing the four rules do. -/
theorem absentFormatRaisesEFormat : Obligations.AbsentFormatRaisesEFormat :=
  ⟨fun _ _ _ _ hc _ hi hnone => exec_of_raised hc (ruleOf_of_record_none hi hnone), fun s _ h => s.record_eq_none h,
    fun _ => ⟨rfl, rfl⟩⟩

/-- Settles O17: the format is found, the look-up of the field raises. -/
theorem fieldIdPastTheTableRaisesEField : Obligations.FieldIdPastTheTableRaisesEField := by
  intro s fmt fid F hc hfid hF hlen
  have hfmt : fmt < 4 := FormatRom.record_lt hF
  have hwf : (Instr.get fmt fid).wf = true ∧ (Instr.set fmt fid).wf = true := by
    simp only [Instr.wf, Bool.and_eq_true, decide_eq_true_eq]
    omega
  exact ⟨exec_of_raised_of_wf hc hwf.1 (ruleOf_of_fields_length_le (.inl rfl) hF hlen),
    exec_of_raised_of_wf hc hwf.2 (ruleOf_of_fields_length_le (.inr rfl) hF hlen)⟩

/-- Settles O18: each of the four shapes breaks a bound of CheckDesc, the first check of the two rules. -/
theorem illFormedInlineDescriptorRaisesEDesc : Obligations.IllFormedInlineDescriptorRaisesEDesc := by
  intro s q o w hc hq ho hw hshape
  have hillegal : ¬DescLegal ⟨q, o, w⟩ := by
    simp only [DescLegal, windowBits, nq]
    split <;> omega
  have hwf : (Instr.getd q o w).wf = true ∧ (Instr.setd q o w).wf = true := by
    simp only [Instr.wf, Bool.and_eq_true, decide_eq_true_eq]
    omega
  exact ⟨exec_of_raised_of_wf hc hwf.1 (ruleOf_of_not_descLegal (.inl rfl) hillegal),
    exec_of_raised_of_wf hc hwf.2 (ruleOf_of_not_descLegal (.inr rfl) hillegal)⟩

end Sys2Proof.Machine
end

section
/-! PROOFS. The statement about reset (70_reset_and_hazards.md R200). What the register block shows is a function of the
registers alone, so a reset shows what the state right after reset shows; the step of a reset is the reset of the registers. -/

namespace Sys2Proof.Machine

/-! ## What the register block shows after a reset -/

theorem readRegister_resetWith (C : Config) (off : Nat) :
    readRegister (State.resetWith C) off = if off = 0x00 then idWord else 0 := by
  obtain rfl | h0 := eq_or_ne off 0x00
  · rfl
  · rw [if_neg h0]
    unfold readRegister
    split
    case h_1 => exact absurd rfl h0
    case h_9 => simp [State.resetWith] -- RESULT_HI, the one slot that is computed
    all_goals rfl

/-- M, CFG and the pending operations are no part of what the register block shows. -/
@[simp] theorem readRegister_resetRegisters (s : State) (off : Nat) :
    readRegister (resetRegisters s) off = if off = 0x00 then idWord else 0 :=
  readRegister_resetWith s.cfg off

/-- A pending reset is taken in one step. -/
theorem step_reset {s : State} {rest : List BusOp} (hc : s.cfg.wf = true) (h : s.inbox = .reset :: rest) :
    step s = .next (resetRegisters { s with inbox := rest }) :=
  step_cons hc h

/-! ## The statement -/

/-- Settles O1: the step is `resetRegisters`, and it keeps M and CFG; both states show the register block of R21. -/
theorem resetSetsEveryRegister : Obligations.ResetSetsEveryRegister :=
  ⟨fun _ _ hc hin => ⟨_, step_reset hc hin, readRegister_resetRegisters _, rfl, rfl, rfl, rfl, rfl, rfl, rfl, rfl, rfl⟩,
    readRegister_resetWith⟩

end Sys2Proof.Machine
end

section
/-! PROOFS. The statements about the round trip of the decoder and the encoder and about the word a step runs (30_encoding.md R81
to R88, R91). The three word formats are read field by field once; each command is then one opcode and one format. -/

namespace Sys2Proof

/-! ## The three word formats as bit fields -/

/-- Format T, a format code and a field id (30_encoding.md R82). -/
theorem bitField_tableWord {c : Word} {k fmt fid : Nat} (hfmt : fmt < 16) (hfid : fid < 256)
    (h : c.toNat = k * 2 ^ 28 + (fmt * 2 ^ 24 + fid * 2 ^ 16)) :
    bitField c 27 24 = fmt ∧ bitField c 23 16 = fid ∧ bitField c 15 0 = 0 := by
  simp only [bitField]
  omega

/-- Format F, a format code alone (30_encoding.md R83). -/
theorem bitField_formatWord {c : Word} {k fmt : Nat} (hfmt : fmt < 16) (h : c.toNat = k * 2 ^ 28 + fmt * 2 ^ 24) :
    bitField c 27 24 = fmt ∧ bitField c 23 0 = 0 := by
  simp only [bitField]
  omega

/-- Format D, an inline descriptor (30_encoding.md R84). -/
theorem bitField_descWord {c : Word} {k q o w : Nat} (hq : q < 16) (ho : o < 32) (hw : w < 128)
    (h : c.toNat = k * 2 ^ 28 + (q * 2 ^ 12 + o * 2 ^ 7 + w)) :
    bitField c 27 16 = 0 ∧ bitField c 15 12 = q ∧ bitField c 11 7 = o ∧ bitField c 6 0 = w := by
  simp only [bitField]
  omega

/-- The decoder reads a well-formed command's word back, with no operand bit dropped. -/
theorem decodeWord_encode {i : Instr} (hi : i.wf = true) : decodeWord (encode i) = .ok i := by
  obtain ⟨hop, hbits⟩ := Laws.OwnOpcode.statement_all i hi
  generalize encode i = c at hop hbits
  cases i with
  | nop =>
    have hzero : bitField c 27 0 = 0 := by simp [bitField, hbits, Laws.OwnOpcode.opcodeOf, Laws.OwnOpcode.operandBits]
    rw [decodeWord_op0 hop, if_pos hzero]
  | get fmt fid =>
    simp only [Instr.wf, Bool.and_eq_true, decide_eq_true_eq] at hi
    obtain ⟨hfmt16, hfid256⟩ := hi
    obtain ⟨hfmt, hfid, hzero⟩ := bitField_tableWord hfmt16 hfid256 hbits
    rw [decodeWord_op1 hop, if_pos hzero, hfmt, hfid]
  | set fmt fid =>
    simp only [Instr.wf, Bool.and_eq_true, decide_eq_true_eq] at hi
    obtain ⟨hfmt16, hfid256⟩ := hi
    obtain ⟨hfmt, hfid, hzero⟩ := bitField_tableWord hfmt16 hfid256 hbits
    rw [decodeWord_op2 hop, if_pos hzero, hfmt, hfid]
  | init fmt =>
    obtain ⟨hfmt, hzero⟩ := bitField_formatWord (of_decide_eq_true hi) hbits
    rw [decodeWord_op3 hop, if_pos hzero, hfmt]
  | isvalid fmt =>
    obtain ⟨hfmt, hzero⟩ := bitField_formatWord (of_decide_eq_true hi) hbits
    rw [decodeWord_op4 hop, if_pos hzero, hfmt]
  | getd q o w =>
    simp only [Instr.wf, Bool.and_eq_true, decide_eq_true_eq] at hi
    obtain ⟨⟨hq16, ho32⟩, hw128⟩ := hi
    obtain ⟨hzero, hq, ho, hw⟩ := bitField_descWord hq16 ho32 hw128 hbits
    rw [decodeWord_op5 hop, if_pos hzero, hq, ho, hw]
  | setd q o w =>
    simp only [Instr.wf, Bool.and_eq_true, decide_eq_true_eq] at hi
    obtain ⟨⟨hq16, ho32⟩, hw128⟩ := hi
    obtain ⟨hzero, hq, ho, hw⟩ := bitField_descWord hq16 ho32 hw128 hbits
    rw [decodeWord_op6 hop, if_pos hzero, hq, ho, hw]

/-- A word decodes to a well-formed command when it is the word the encoder writes for it. -/
theorem decodeWord_of_eq_encode {c : Word} {i : Instr} (hi : i.wf = true) (h : encode i = c) : decodeWord c = .ok i :=
  h ▸ decodeWord_encode hi

/-- Settles O9: the word of a well-formed command is its opcode and its operand bits, and the decoder reads each field back. -/
theorem decodeOfEncodeIsTheCommand : Obligations.DecodeOfEncodeIsTheCommand := fun _ => decodeWord_encode

/-- Settles O10: a word that decodes is the opcode and the operand bits of its command, and so is the command's encoding. -/
theorem encodeOfDecodeIsTheWord : Obligations.EncodeOfDecodeIsTheWord := fun _ _ h =>
  have ⟨hwf, _⟩ := decodeWord_eq_ok h
  ⟨hwf, encode_of_decodeWord h⟩

/-- Settles O8: each word is the encoding of its command. -/
theorem sampleWordsDecode : Obligations.SampleWordsDecode :=
  ⟨decodeWord_of_eq_encode (by decide) (by decide), decodeWord_of_eq_encode (by decide) (by decide),
    decodeWord_of_eq_encode (by decide) (by decide), decodeWord_of_eq_encode (by decide) (by decide),
    decodeWord_of_eq_encode (by decide) (by decide), decodeWord_of_eq_encode (by decide) (by decide),
    decodeWord_of_eq_encode (by decide) (by decide)⟩

end Sys2Proof

namespace Sys2Proof.Machine

/-- A command runs as its own word does. -/
theorem executeWord_encode {i : Instr} (hi : i.wf = true) (s : State) : executeWord (encode i) s = exec i s :=
  executeWord_of_decodes (decodeWord_encode hi) s

/-- A CMD write of a word that decodes is exec of its command, under every configuration. -/
theorem step_of_decodes {s : State} {c : Word} {i : Instr} {rest : List BusOp} (hin : s.inbox = .regWrite 0x08 .word c :: rest)
    (hd : decodeWord c = .ok i) : step s = exec i { s with inbox := rest } := by
  cases hc : s.cfg.wf with
  | true => rw [step_cmd hc hin, executeWord_of_decodes hd]
  | false => rw [step_illFormed hc, exec_illFormed (s := { s with inbox := rest }) hc]

/-- A placed 32-bit word is pushed as it is. -/
theorem withFetchWord_toNat (s : State) (c : Word) : s.withFetchWord 32 c.toNat = s.pushCommand c := by
  rw [State.withFetchWord, Nat.mod_eq_of_lt c.isLt, BitVec.ofNat_toNat, BitVec.setWidth_eq]

/-- Settles O12: the step takes the pending CMD write, and a placed word is pending as one. -/
theorem stepRunsTheDecodedCommand : Obligations.StepRunsTheDecodedCommand := by
  refine ⟨fun s c i rest hin hd => step_of_decodes hin hd, fun s c i hd => ?_⟩
  rw [withFetchWord_toNat]
  exact step_of_decodes (State.pushCommand_inbox c s) hd

end Sys2Proof.Machine
end

section
/-! PROOFS. The statements about M, its windows and what two insertions leave (20_memory.md R60, R64, R68; 40_field_access.md R114;
70_reset_and_hazards.md R205). Bytes from the base up are header bits, so memories are compared bit by bit there; the value of a
window is split at a quadlet. -/

namespace Sys2Proof.Machine

/-! ## Bytes as header bits -/

/-- Two memories with the same bytes below `base` and the same header bits from there have the same bytes. -/
theorem read_eq_of_headerBit_eq {m m' : Memory} {base : Nat} (hlow : ∀ a < base, Memory.read m a = Memory.read m' a)
    (hbits : ∀ b, headerBit m base b = headerBit m' base b) (a : Nat) : Memory.read m a = Memory.read m' a := by
  by_cases ha : a < base
  · exact hlow a ha
  · refine BitVec.eq_of_getLsbD_eq fun i hi => ?_
    have hbit := hbits (8 * (a - base) + (7 - i))
    have haddr : base + (8 * (a - base) + (7 - i)) / 8 = a := by omega
    have hplace : 7 - (8 * (a - base) + (7 - i)) % 8 = i := by omega
    simpa only [headerBit, haddr, hplace] using hbit

section
variable {s : State} {d : Desc}

/-- No insertion over the view changes a byte below its base. -/
theorem State.read_insert_below (s : State) (d : Desc) (v : Nat) {a : Nat} (ha : a < s.base) :
    Memory.read (s.insert d v).mem a = Memory.read s.mem a :=
  read_insertField_outside s.mem s.base d v a (by omega)

/-- Of two insertions in one field the second decides every byte. -/
theorem State.read_insert_insert (hd : d.wf = true) (v1 v2 a : Nat) :
    Memory.read ((s.insert d v1).insert d v2).mem a = Memory.read (s.insert d v2).mem a := by
  refine read_eq_of_headerBit_eq (base := s.base) (fun a ha => ?_) (fun b => ?_) a
  · rw [State.read_insert_below (s.insert d v1) d v2 ha, State.read_insert_below s d v1 ha, State.read_insert_below s d v2 ha]
  · change ((s.insert d v1).insert d v2).headerBit b = (s.insert d v2).headerBit b
    rw [State.headerBit_insert _ hd, State.headerBit_insert s hd, State.headerBit_insert s hd]
    split <;> rfl

/-- A field's own value, inserted, leaves every byte. -/
theorem State.read_insert_fieldValue (hd : d.wf = true) (a : Nat) :
    Memory.read (s.insert d (s.fieldValue d)).mem a = Memory.read s.mem a := by
  refine read_eq_of_headerBit_eq (base := s.base) (fun a ha => State.read_insert_below s d _ ha) (fun b => ?_) a
  change (s.insert d (s.fieldValue d)).headerBit b = s.headerBit b
  rw [State.headerBit_insert s hd]
  split
  · rename_i hb
    have hplace : d.firstBit + (d.w - 1 - (d.w - 1 - (b - d.firstBit))) = b := by omega
    rw [State.fieldValue_testBit s hd, hplace, decide_eq_true (by omega), Bool.true_and]
  · rfl

theorem State.insert_mem_wf (h : Memory.wf s.mem) (d : Desc) (v : Nat) : Memory.wf (s.insert d v).mem :=
  insertField_wf h s.base d v

end

/-! ## The wide window (20_memory.md R68) -/

/-- The bytes of a range are those of its first part, then those of the rest. -/
theorem Memory.readBE_add (m : Memory) (a n k : Nat) :
    Memory.readBE m a (n + k) = Memory.readBE m a n * 256 ^ k + Memory.readBE m (a + n) k := by
  induction k with
  | zero => simp [Memory.readBE]
  | succ k ih =>
    rw [← Nat.add_assoc, Memory.readBE, ih, Memory.readBE, pow_succ, Nat.add_assoc a n k]
    ring

theorem Desc.windowBytes_narrow {q o w : Nat} (h : w ≤ 32) : Desc.windowBytes ⟨q, o, w⟩ = 4 := by
  simp [Desc.windowBytes, nq, h]

theorem Desc.windowBytes_wide {q o w : Nat} (h : 32 < w) : Desc.windowBytes ⟨q, o, w⟩ = 4 + 4 := by
  simp [Desc.windowBytes, nq, h.not_ge]

/-! ## VALUE_HI and the width of a field (70_reset_and_hazards.md R205) -/

section
variable {s t : State} {op : FieldOperand} {d : Desc}

/-- A SET or SETD leaves the same M for every VALUE that agrees on the field's bits. -/
theorem exists_set_of_value_congr (hn : op.Names s d) (h : exec (op.command .set) s = .next t) (he : t.status.err = false)
    {lo hi : Word} (hv : (2 ^ 32 * hi.toNat + lo.toNat) % 2 ^ d.w = s.value % 2 ^ d.w) :
    ∃ t', exec (op.command .set) { s with valueLo := lo, valueHi := hi } = .next t' ∧ t'.mem = t.mem := by
  obtain ⟨hr, rfl⟩ := (exec_command_iff hn .set).mp ⟨h, he⟩
  obtain ⟨hset, -⟩ := (exec_command_iff (s := { s with valueLo := lo, valueHi := hi }) (hn.of_cfg_eq rfl) .set).mpr ⟨hr, rfl⟩
  refine ⟨_, hset, ?_⟩
  calc _ = insertField s.mem s.base d (2 ^ 32 * hi.toNat + lo.toNat) := rfl
    _ = insertField s.mem s.base d s.value := by rw [← insertField_mod_two_pow, hv, insertField_mod_two_pow]

/-- The low bits of VALUE, up to 32 of them, are those of VALUE_LO. -/
theorem value_mod_two_pow_of_le {w : Nat} (hw : w ≤ 32) (hi lo : Nat) : (2 ^ 32 * hi + lo) % 2 ^ w = lo % 2 ^ w := by
  obtain ⟨k, hk⟩ := Nat.pow_dvd_pow 2 hw
  rw [hk, Nat.mul_assoc, Nat.mul_add_mod]

/-- A field of at most 32 bits takes nothing from VALUE_HI. -/
theorem exists_set_of_narrow (hn : op.Names s d) (hw : d.w ≤ 32) (h : exec (op.command .set) s = .next t)
    (he : t.status.err = false) (hi : Word) :
    ∃ t', exec (op.command .set) { s with valueHi := hi } = .next t' ∧ t'.mem = t.mem :=
  exists_set_of_value_congr hn h he (lo := s.valueLo)
    ((value_mod_two_pow_of_le hw _ _).trans (value_mod_two_pow_of_le hw _ _).symm)

/-- The bits of VALUE that a field of more than 32 bits takes: VALUE_LO below, bits of VALUE_HI above. -/
theorem State.value_mod_of_wide (s : State) {w : Nat} (hw : 32 < w) :
    s.value % 2 ^ w / 2 ^ 32 = s.valueHi.toNat % 2 ^ (w - 32) ∧ s.value % 2 ^ w % 2 ^ 32 = s.valueLo.toNat := by
  have hlo := s.valueLo.isLt
  have hdiv : s.value / 2 ^ 32 = s.valueHi.toNat := by unfold State.value; omega
  have hmod : s.value % 2 ^ 32 = s.valueLo.toNat := by unfold State.value; omega
  obtain ⟨k, rfl⟩ : ∃ k, w = 32 + k := ⟨w - 32, by omega⟩
  rw [Nat.add_sub_cancel_left, pow_add, Nat.mod_mul_right_div_self, Nat.mod_mul_right_mod, hdiv, hmod]
  exact ⟨rfl, rfl⟩

end

/-! ## The statements -/

/-- Settles O49: the laws of the memory's operations. -/
theorem canonicalMemoryIsAFunctionOfItsBytes : Obligations.CanonicalMemoryIsAFunctionOfItsBytes :=
  ⟨fun m a x v => Memory.read_write m a v x, fun _ a v hm => Memory.write_wf hm a v, fun _ _ => Memory.eq_of_read_eq⟩

/-- Settles O34: the bytes agree header bit by header bit, and in canonical form equal bytes are equal memories. -/
theorem insertOverwritesAndRestores : Obligations.InsertOverwritesAndRestores := by
  refine fun s d v1 v2 a hd => ⟨State.read_insert_insert hd v1 v2 a, State.read_insert_fieldValue hd a, fun hm => ⟨?_, ?_⟩⟩
  · exact Memory.eq_of_read_eq (State.insert_mem_wf (State.insert_mem_wf hm d v1) d v2) (State.insert_mem_wf hm d v2)
      (State.read_insert_insert hd v1 v2)
  · exact Memory.eq_of_read_eq (State.insert_mem_wf hm d _) hm (State.read_insert_fieldValue hd)

/-- Settles O36: the eight bytes of the wide window are two runs of four. -/
theorem wideWindowIsTwoQuadlets : Obligations.WideWindowIsTwoQuadlets := by
  intro m base q o w o1 w1 o2 w2 hw hw1 hw2
  have hnext : base + 4 * (q + 1) = base + 4 * q + 4 := by omega
  simp only [readWindow, Desc.windowBytes_narrow hw1, Desc.windowBytes_narrow hw2, Desc.windowBytes_wide hw, Desc.firstByte, hnext]
  exact Memory.readBE_add m (base + 4 * q) 4 4

/-- Settles O31: a narrow field's bits of VALUE are VALUE_LO's; a wide field is read back as VALUE modulo 2^w. -/
theorem narrowFieldIgnoresValueHi : Obligations.NarrowFieldIgnoresValueHi := by
  refine ⟨fun s t hi q o w hw h he => exists_set_of_narrow (op := .inline ⟨q, o, w⟩) rfl hw h he hi,
    fun s t hi fmt fid d hw hd h he => exists_set_of_narrow (op := .table fmt fid) hd hw h he hi,
    fun s t fmt fid d hd hw h he => ?_⟩
  obtain ⟨u, hget, herr, hu⟩ := exists_get_of_set (op := .table fmt fid) hd h he
  obtain ⟨hhigh, hlow⟩ := s.value_mod_of_wide hw
  exact ⟨u, hget, herr, by rw [hu, hhigh], by rw [hu, hlow]⟩

end Sys2Proof.Machine
end

section
/-! PROOFS. The statements about what a command leaves unchanged (20_memory.md R69, 10_state.md R34). What every command leaves is
said once; the stored bytes come from the footprint, which a rule that ends well keeps inside the view. -/

namespace Sys2Proof.Machine

/-! ## What every command leaves -/

section
variable {i : Instr} {s t : State}

/-- No rule touches CMD or the model's own fields. -/
theorem ruleOf_environment (h : ruleOf i s = .ok t) : t.cmd = s.cmd ∧ SameEnvironment s t := by
  obtain ⟨rfl, -⟩ | ⟨fmt, F, -, -, -, rfl⟩ | ⟨d, -, rfl, -⟩ | ⟨d, -, rfl, -⟩ | ⟨fmt, F, -, -, -, -, -, rfl⟩ :=
    ruleOf_eq_ok h <;> exact ⟨rfl, rfl, rfl, rfl⟩

/-- A command, with or without an error, leaves its word in CMD, the operand registers, CFG and the model's own fields. -/
theorem exec_frame (h : exec i s = .next t) : SameOperands s t ∧ SameEnvironment s t ∧ t.cmd = encode i := by
  rw [exec_eq] at h
  obtain ⟨-, hok | ⟨e, -, rfl⟩⟩ := runCommand_eq_next.mp h
  · obtain ⟨hcmd, henv⟩ := ruleOf_environment hok
    exact ⟨ruleOf_sameOperands (s := beginCommand _ s) hok, henv, hcmd⟩
  · exact ⟨⟨rfl, rfl, rfl, rfl, rfl⟩, ⟨rfl, rfl, rfl⟩, rfl⟩

theorem opcodeOf_eq_one : Laws.OwnOpcode.opcodeOf i = 1 ↔ ∃ fmt fid, i = .get fmt fid := by
  cases i <;> simp [Laws.OwnOpcode.opcodeOf]

theorem opcodeOf_eq_five : Laws.OwnOpcode.opcodeOf i = 5 ↔ ∃ q o w, i = .getd q o w := by
  cases i <;> simp [Laws.OwnOpcode.opcodeOf]

/-- Only GET and GETD write RESULT (10_state.md R28). -/
theorem exec_result (hi : i.wf = true) (h : exec i s = .next t) (hget : ∀ fmt fid, i ≠ .get fmt fid)
    (hgetd : ∀ q o w, i ≠ .getd q o w) : t.result = s.result := by
  obtain ⟨hop, -⟩ := Laws.OwnOpcode.statement_all i hi
  rw [← executeWord_encode hi] at h
  refine executeWord_result h ?_ ?_
  · rw [hop, Ne, opcodeOf_eq_one]
    exact fun ⟨fmt, fid, hi⟩ => hget fmt fid hi
  · rw [hop, Ne, opcodeOf_eq_five]
    exact fun ⟨q, o, w, hi⟩ => hgetd q o w hi

/-- Only ISVALID sets VALID. -/
theorem exec_valid (h : exec i s = .next t) (hi : ∀ fmt, i ≠ .isvalid fmt) : t.status.valid = false := by
  rw [exec_eq] at h
  obtain ⟨-, hok | ⟨e, -, rfl⟩⟩ := runCommand_eq_next.mp h
  · obtain ⟨rfl, -⟩ | ⟨fmt, F, hisvalid, -⟩ | ⟨d, -, rfl, -⟩ | ⟨d, -, rfl, -⟩ | ⟨fmt, F, -, -, -, -, -, rfl⟩ := ruleOf_eq_ok hok
    · rfl
    · exact absurd hisvalid (hi fmt)
    · rfl
    · rfl
    · rfl
  · rfl

/-- An error leaves M (60_exceptions.md R181). -/
theorem exec_mem_of_err (h : exec i s = .next t) (he : t.status.err = true) : t.mem = s.mem := by
  rw [exec_eq] at h
  obtain ⟨-, hok | ⟨e, -, rfl⟩⟩ := runCommand_eq_next.mp h
  · rw [ruleOf_noError hok] at he
    cases he
  · rfl

/-- NOP, GET, GETD and ISVALID store nothing. -/
theorem exec_mem_of_nonStoring
    (hi : i = .nop ∨ (∃ fmt fid, i = .get fmt fid) ∨ (∃ q o w, i = .getd q o w) ∨ ∃ fmt, i = .isvalid fmt)
    (h : exec i s = .next t) : t.mem = s.mem := by
  rw [exec_eq] at h
  obtain ⟨-, hok | ⟨e, -, rfl⟩⟩ := runCommand_eq_next.mp h
  · obtain ⟨rfl, -⟩ | ⟨fmt, F, -, -, -, rfl⟩ | ⟨d, -, rfl, -⟩ | ⟨d, -, -, ⟨fmt, fid, F, rfl, -⟩ | ⟨rfl, -⟩⟩ |
      ⟨fmt, F, rfl, -⟩ := ruleOf_eq_ok hok
    · rfl
    · rfl
    · rfl
    · simp at hi
    · simp at hi
    · simp at hi
  · rfl

/-! ## The footprint (20_memory.md R69) -/

theorem ruleOf_isvalid_view {fmt : Nat} (h : ruleOf (.isvalid fmt) s = .ok t) : baseOk s = true ∧ viewFits s = true := by
  obtain ⟨F, -, hview, -⟩ := ruleOf_isvalid_eq_ok.mp h
  exact hview

/-- A rule that ends well is NOP's, or its view passed the checks of R62. -/
theorem ruleOf_view (h : ruleOf i s = .ok t) : i = .nop ∨ baseOk s = true ∧ viewFits s = true := by
  obtain ⟨-, rfl | ⟨fmt, F, rfl, -⟩⟩ | ⟨fmt, F, rfl, -⟩ | ⟨d, ⟨hb, hf, -⟩, -⟩ | ⟨d, ⟨hb, hf, -⟩, -⟩ |
    ⟨fmt, F, -, -, -, hb, hf, -⟩ := ruleOf_eq_ok h
  · exact .inl rfl
  · exact .inr (ruleOf_isvalid_view h)
  · exact .inr (ruleOf_isvalid_view h)
  · exact .inr ⟨hb, hf⟩
  · exact .inr ⟨hb, hf⟩
  · exact .inr ⟨hb, hf⟩

/-- A window that passed CheckBounds lies in the view (20_memory.md R63). -/
theorem inView_of_mem_windowAddrs {d : Desc} (hd : d.firstByte + d.windowBytes ≤ s.len) {a : Nat}
    (ha : a ∈ windowAddrs s d) : InView s a := by
  obtain ⟨hlow, hhigh⟩ := mem_windowAddrs.mp ha
  exact ⟨by omega, by omega⟩

/-- A field of a table stands at its row's window. -/
theorem footprint_table {fmt fid : Nat} {F : Format} {d : Desc} (hF : s.record fmt = some F) (hd : F.fields[fid]? = some d) :
    footprint s (.get fmt fid) = windowAddrs s d ∧ footprint s (.set fmt fid) = windowAddrs s d := by
  simp only [footprint, hF, Format.row_of_getElem? hd, and_self]

theorem mem_footprint_init {fmt : Nat} {F : Format} (hF : s.record fmt = some F) {a : Nat} :
    a ∈ footprint s (.init fmt) ↔ s.base ≤ a ∧ a < s.base + F.hlen := by
  simp only [footprint, hF]
  exact mem_headerAddrs

/-- ISVALID reads nothing unless stage S1 passes, and then rows of its table only, which lie in the header. -/
theorem inView_of_mem_footprint_isvalid {fmt : Nat} (hc : s.cfg.wf = true) (h : ruleOf (.isvalid fmt) s = .ok t) {a : Nat}
    (ha : a ∈ footprint s (.isvalid fmt)) : InView s a := by
  obtain ⟨F, hF, -⟩ := ruleOf_isvalid_eq_ok.mp h
  have hwf := Config.record_wf hc hF
  simp only [footprint, hF] at ha
  split at ha
  · rename_i hS1
    obtain ⟨fid, hfid, ha⟩ := List.mem_flatMap.mp ha
    have hrow := Format.getElem?_row (lt_of_mem_validityFields hwf hfid)
    exact inView_of_mem_windowAddrs ((Format.window_le_hlen hwf hrow).trans (stage1_iff.mp hS1)) ha
  · cases ha

/-- The footprint of a rule that ends well lies in the view. -/
theorem ruleOf_footprint_inView (hc : s.cfg.wf = true) (h : ruleOf i s = .ok t) {a : Nat} (ha : a ∈ footprint s i) :
    InView s a := by
  obtain ⟨-, rfl | ⟨fmt, F, rfl, -⟩⟩ | ⟨fmt, F, rfl, -⟩ |
    ⟨d, ⟨-, -, hbounds, -⟩, -, ⟨fmt, fid, F, rfl, hF, hd⟩ | ⟨rfl, -⟩⟩ |
    ⟨d, ⟨-, -, hbounds, -⟩, -, ⟨fmt, fid, F, rfl, hF, hd⟩ | ⟨rfl, -⟩⟩ | ⟨fmt, F, rfl, hF, hlen, -⟩ := ruleOf_eq_ok h
  · cases ha
  · exact inView_of_mem_footprint_isvalid hc h ha
  · exact inView_of_mem_footprint_isvalid hc h ha
  · exact inView_of_mem_windowAddrs (inBounds_iff.mp hbounds) ((footprint_table hF hd).1 ▸ ha)
  · exact inView_of_mem_windowAddrs (inBounds_iff.mp hbounds) ha
  · exact inView_of_mem_windowAddrs (inBounds_iff.mp hbounds) ((footprint_table hF hd).2 ▸ ha)
  · exact inView_of_mem_windowAddrs (inBounds_iff.mp hbounds) ha
  · obtain ⟨hlow, hhigh⟩ := (mem_footprint_init hF).mp ha
    exact ⟨hlow, by omega⟩

/-- A rule that ends well changes no byte outside its footprint. -/
theorem ruleOf_read_outside (hc : s.cfg.wf = true) (h : ruleOf i s = .ok t) {a : Nat} (ha : a ∉ footprint s i) :
    Memory.read t.mem a = Memory.read s.mem a := by
  obtain ⟨rfl, -⟩ | ⟨fmt, F, -, -, -, rfl⟩ | ⟨d, -, rfl, -⟩ |
    ⟨d, -, rfl, ⟨fmt, fid, F, rfl, hF, hd⟩ | ⟨rfl, -⟩⟩ | ⟨fmt, F, rfl, hF, -, -, -, rfl⟩ := ruleOf_eq_ok h
  · rfl
  · rfl
  · rfl
  · exact read_insertField_outside _ _ _ _ _ (mt mem_windowAddrs.mpr ((footprint_table hF hd).2 ▸ ha))
  · exact read_insertField_outside _ _ _ _ _ (mt mem_windowAddrs.mpr ha)
  · exact read_initHeader_outside (Config.record_wf hc hF) (mt (mem_footprint_init hF).mpr ha) _

theorem exec_read_outside (h : exec i s = .next t) {a : Nat} (ha : a ∉ footprint s i) :
    Memory.read t.mem a = Memory.read s.mem a := by
  rw [exec_eq] at h
  obtain ⟨hc, hok | ⟨e, -, rfl⟩⟩ := runCommand_eq_next.mp h
  · exact ruleOf_read_outside (s := beginCommand _ s) hc hok ha
  · rfl

theorem exec_footprint_inView (h : exec i s = .next t) (he : t.status.err = false) {a : Nat} (ha : a ∈ footprint s i) :
    InView s a := by
  obtain ⟨hc, hok⟩ := exec_noError_iff.mp ⟨h, he⟩
  exact ruleOf_footprint_inView (s := beginCommand _ s) hc hok ha

/-- The footprint of SET and SETD is the window of the field they name. -/
theorem footprint_of_store {d : Desc} (hi : (∃ fmt fid, i = .set fmt fid ∧ FieldIs s fmt fid d) ∨ i = .setd d.q d.o d.w) :
    footprint s i = windowAddrs s d := by
  obtain ⟨fmt, fid, rfl, F, hF, hd⟩ | rfl := hi
  · exact (footprint_table hF hd).2
  · rfl

/-- A SET that names no field raises an error. -/
theorem exec_set_of_no_field {fmt fid : Nat} (hnone : ∀ d, ¬FieldIs s fmt fid d) (h : exec (.set fmt fid) s = .next t) :
    t.status.err = true := by
  obtain ⟨-, ⟨e, rfl⟩ | ⟨d, hd, -⟩⟩ := exec_set_eq_next h
  · rfl
  · exact absurd hd (hnone d)

end

/-! ## The statements about frames -/

/-- Settles O50: a rule that ends well writes its footprint only, after the checks that keep it in the view. -/
theorem commandsTouchOnlyTheirFootprint : Obligations.CommandsTouchOnlyTheirFootprint :=
  fun _ _ _ h => ⟨fun _ => exec_read_outside h, exec_mem_of_err h, fun he _ => exec_footprint_inView h he⟩

/-- Settles O46: the rules of the four commands leave M, and the opcodes of NOP and ISVALID leave RESULT. -/
theorem nonStoringCommandsLeaveMemory : Obligations.NonStoringCommandsLeaveMemory := by
  intro i s t hwf hi h
  obtain ⟨hops, henv, hcmd⟩ := exec_frame h
  refine ⟨fun a => by rw [exec_mem_of_nonStoring hi h], hops, henv, hcmd, ?_, exec_valid h⟩
  rintro (rfl | ⟨fmt, rfl⟩) <;> exact exec_result hwf h nofun nofun

/-- Settles O47: the footprint of SET and SETD is the window of their field. -/
theorem setAndSetdStoreOnlyTheirWindow : Obligations.SetAndSetdStoreOnlyTheirWindow := by
  intro i s t d hwf hi h
  obtain ⟨hops, henv, hcmd⟩ := exec_frame h
  have houtside : ∀ a, ¬(s.base + 4 * d.q ≤ a ∧ a < s.base + 4 * d.q + 4 * nq d.w) →
      Memory.read t.mem a = Memory.read s.mem a := by
    intro a ha
    refine exec_read_outside h ?_
    rw [footprint_of_store hi]
    exact mt mem_windowAddrs.mp ha
  refine ⟨houtside, fun he a => by rw [exec_mem_of_err h he], hops, henv, hcmd, ?_⟩
  obtain ⟨fmt, fid, rfl, -⟩ | rfl := hi
  · exact ⟨exec_result hwf h nofun nofun, exec_valid h nofun⟩
  · exact ⟨exec_result hwf h nofun nofun, exec_valid h nofun⟩

/-- Settles O48: a SET without a field raises an error, and the footprint of INIT is the header. -/
theorem initStoresOnlyTheHeader : Obligations.InitStoresOnlyTheHeader := by
  refine ⟨fun fmt fid s t hfmt hfid hnone h => ?_, fun fmt s t hfmt h => ?_⟩
  · obtain ⟨hops, henv, hcmd⟩ := exec_frame h
    have hwf : (Instr.set fmt fid).wf = true := by simp [Instr.wf, hfmt, hfid]
    exact ⟨fun a => by rw [exec_mem_of_err h (exec_set_of_no_field hnone h)], hops, henv, hcmd,
      exec_result hwf h nofun nofun, exec_valid h nofun⟩
  · obtain ⟨hops, henv, hcmd⟩ := exec_frame h
    have hwf : (Instr.init fmt).wf = true := decide_eq_true hfmt
    exact ⟨fun F hF a ha => exec_read_outside h (mt (mem_footprint_init hF).mp ha),
      fun he a => by rw [exec_mem_of_err h he], hops, henv, hcmd, exec_result hwf h nofun nofun, exec_valid h nofun⟩

end Sys2Proof.Machine
end

section
/-! PROOFS. The statement about what an outcome depends on (10_state.md R34). The checks of a rule look at CFG and the operands
only, so they end alike in two states that agree on those; the effect looks at the view's bytes besides. -/

namespace Sys2Proof.Machine

section
variable {i : Instr} {s s' t t' : State}

/-- The bytes of the view of `s` are the same in `m` and `m'`. -/
def SameView (s : State) (m m' : Memory) : Prop := ∀ a, InView s a → Memory.read m' a = Memory.read m a

theorem SameOperands.base_eq (h : SameOperands s s') : s'.base = s.base := by
  obtain ⟨hbase, -⟩ := h
  rw [State.base, hbase, State.base]

theorem SameOperands.len_eq (h : SameOperands s s') : s'.len = s.len := by
  obtain ⟨-, hlen, -⟩ := h
  rw [State.len, hlen, State.len]

theorem SameOperands.value_eq (h : SameOperands s s') : s'.value = s.value := by
  obtain ⟨-, -, hlo, hhi, -⟩ := h
  rw [State.value, hlo, hhi, State.value]

theorem SameOperands.cfg_eq (h : SameOperands s s') : s'.cfg = s.cfg := by
  obtain ⟨-, -, -, -, hcfg⟩ := h
  exact hcfg

theorem SameOperands.record_eq (h : SameOperands s s') (fmt : Nat) : s'.record fmt = s.record fmt := by
  rw [State.record, h.cfg_eq, State.record]

/-! ## Checks -/

/-- How a rule's checks end, its effect left out. -/
def checksOf (i : Instr) (s : State) : Except Stop Unit := (fun _ => ()) <$> ruleOf i s

/-- The checks of a rule look at CFG and the operands only. -/
theorem checksOf_congr (h : SameOperands s s') (i : Instr) : checksOf i s' = checksOf i s := by
  obtain ⟨status, cmd, base, len, lo, hi, result, mem, cfg, inbox, replies, fresh⟩ := s'
  obtain ⟨rfl, rfl, rfl, rfl, rfl⟩ := h
  cases i <;> simp only [checksOf, ruleOf, resolve, readField, writeField, map_bind, map_pure] <;> rfl

theorem checksOf_eq_ok : checksOf i s = .ok () ↔ ∃ t, ruleOf i s = .ok t := by
  unfold checksOf
  cases ruleOf i s <;> simp [Functor.map, Except.map]

theorem checksOf_eq_error {st : Stop} : checksOf i s = .error st ↔ ruleOf i s = .error st := by
  unfold checksOf
  cases ruleOf i s <;> simp [Functor.map, Except.map]

/-! ## Effects -/

/-- The outcomes `t` and `t'` of a command over the view of `s` agree: STATUS, the bytes of the view, and RESULT where the
command writes it. -/
def SameOutcome (i : Instr) (s t t' : State) : Prop :=
  t'.status = t.status ∧ (Laws.OwnOpcode.opcodeOf i = 1 ∨ Laws.OwnOpcode.opcodeOf i = 5 → t'.result = t.result) ∧
  SameView s t.mem t'.mem

/-- A window inside the view holds the same value. -/
theorem readWindow_of_sameView (hv : SameView s s.mem s'.mem) {d : Desc} (hd : d.firstByte + d.windowBytes ≤ s.len) :
    readWindow s'.mem s.base d = readWindow s.mem s.base d :=
  readWindow_congr fun a hlow hhigh => hv a ⟨by omega, by omega⟩

theorem fieldValue_of_sameView (hops : SameOperands s s') (hv : SameView s s.mem s'.mem) {d : Desc}
    (hd : d.firstByte + d.windowBytes ≤ s.len) : s'.fieldValue d = s.fieldValue d := by
  rw [State.fieldValue, State.fieldValue, extract, extract, hops.base_eq, readWindow_of_sameView hv hd]

/-- The effect of a field command whose window lies in the view depends on the operands and the view. -/
theorem ruleOf_command_congr {op : FieldOperand} {d : Desc} {a : FieldAction} (hc : s.cfg.wf = true) (hn : op.Names s d)
    (hst : s'.status = s.status) (hops : SameOperands s s') (hv : SameView s s.mem s'.mem)
    (h : ruleOf (op.command a) s = .ok t) (h' : ruleOf (op.command a) s' = .ok t') : SameOutcome (op.command a) s t t' := by
  rw [ruleOf_command hc hn] at h
  rw [ruleOf_command (hops.cfg_eq ▸ hc) (hn.of_cfg_eq hops.cfg_eq)] at h'
  obtain ⟨_, -, hrun⟩ := bind_eq_ok.mp h
  obtain ⟨_, -, hrun'⟩ := bind_eq_ok.mp h'
  obtain ⟨⟨-, -, hbounds, -⟩, rfl⟩ := FieldAction.run_eq_ok.mp hrun
  obtain ⟨-, rfl⟩ := FieldAction.run_eq_ok.mp hrun'
  have hd := inBounds_iff.mp hbounds
  refine ⟨by simpa using hst, ?_, ?_⟩
  · cases a with
    | get => exact fun _ => congrArg (BitVec.ofNat 64) (fieldValue_of_sameView hops hv hd)
    | set => cases op <;> simp [FieldOperand.command, Laws.OwnOpcode.opcodeOf]
  · cases a with
    | get => exact hv
    | set =>
      intro x hx
      change Memory.read (insertField s'.mem s'.base d s'.value) x = Memory.read (insertField s.mem s.base d s.value) x
      rw [hops.base_eq, hops.value_eq]
      exact read_insertField_congr s.value (readWindow_of_sameView hv hd) (hv x hx)

theorem stage2_congr {F : Format} (hlen : s'.len = s.len)
    (h : ∀ fid ∈ validityFields F, s'.fieldValue (Format.row F fid) = s.fieldValue (Format.row F fid)) :
    stage2 s' F = stage2 s F := by
  unfold stage2
  unfold validityFields at h
  cases hr : F.lenrule with
  | none => rfl
  | some r => simp only [hlen, h r.fid (by simp [hr])]

theorem holds_congr {F : Format} {ch : Check} (hch : ch ∈ F.checks)
    (h : ∀ fid ∈ validityFields F, s'.fieldValue (Format.row F fid) = s.fieldValue (Format.row F fid)) :
    holds s' F ch = holds s F ch := by
  have hread : ∀ fid ∈ checkedFields ch, s'.fieldValue (Format.row F fid) = s.fieldValue (Format.row F fid) :=
    fun fid hfid => h fid (List.mem_append_right _ (List.mem_flatMap.mpr ⟨ch, hch, hfid⟩))
  cases ch with
  | eqConst fid k => simp only [holds, hread fid (by simp [checkedFields])]
  | inRange fid lo hi => simp only [holds, hread fid (by simp [checkedFields])]
  | exclusive a b => simp only [holds, hread a (by simp [checkedFields]), hread b (by simp [checkedFields])]

/-- Stages S2 and S3 read fields of the table only, which lie in the view once S1 holds. -/
theorem verdict_congr {F : Format} (hF : F.wf = true) (hops : SameOperands s s') (hv : SameView s s.mem s'.mem) :
    verdict s' F = verdict s F := by
  have h1 : stage1 s' F = stage1 s F := by rw [stage1, hops.len_eq, stage1]
  cases hs : stage1 s F with
  | false => simp only [verdict, h1, hs, Bool.false_and]
  | true =>
    have hvalue : ∀ fid ∈ validityFields F, s'.fieldValue (Format.row F fid) = s.fieldValue (Format.row F fid) := by
      intro fid hfid
      have hrow := Format.getElem?_row (lt_of_mem_validityFields hF hfid)
      exact fieldValue_of_sameView hops hv ((Format.window_le_hlen hF hrow).trans (stage1_iff.mp hs))
    have h3 : F.checks.all (holds s' F) = F.checks.all (holds s F) := by
      rw [Bool.eq_iff_iff, List.all_eq_true, List.all_eq_true]
      exact forall₂_congr fun ch hch => by rw [holds_congr hch hvalue]
    rw [verdict, verdict, h1, stage2_congr hops.len_eq hvalue, h3]

/-- A rule that ends well from two states that agree on CFG, STATUS, the operands and the view has the same outcome. -/
theorem ruleOf_congr (hc : s.cfg.wf = true) (hst : s'.status = s.status) (hops : SameOperands s s')
    (hv : SameView s s.mem s'.mem) (h : ruleOf i s = .ok t) (h' : ruleOf i s' = .ok t') : SameOutcome i s t t' := by
  cases i with
  | nop =>
    cases h
    cases h'
    exact ⟨hst, by simp [Laws.OwnOpcode.opcodeOf], hv⟩
  | get fmt fid =>
    obtain ⟨d, hd, -⟩ := bind_eq_ok.mp h
    exact ruleOf_command_congr (op := .table fmt fid) (a := .get) hc (resolve_eq_ok.mp hd) hst hops hv h h'
  | set fmt fid =>
    obtain ⟨d, hd, -⟩ := bind_eq_ok.mp h
    exact ruleOf_command_congr (op := .table fmt fid) (a := .set) hc (resolve_eq_ok.mp hd) hst hops hv h h'
  | init fmt =>
    obtain ⟨F, hF, -, -, -, rfl⟩ := ruleOf_init_eq_ok.mp h
    obtain ⟨F', hF', -, -, -, rfl⟩ := ruleOf_init_eq_ok.mp h'
    obtain rfl : F' = F := Option.some.inj (hF'.symm.trans ((hops.record_eq fmt).trans hF))
    refine ⟨hst, by simp [Laws.OwnOpcode.opcodeOf], fun a ha => ?_⟩
    have hwf := Config.record_wf hc hF
    change Memory.read (initHeader s'.mem s'.base F') a = Memory.read (initHeader s.mem s.base F') a
    rw [hops.base_eq]
    by_cases hin : s.base ≤ a ∧ a < s.base + F'.hlen
    · exact read_initHeader_inside hwf hin _ _
    · rw [read_initHeader_outside hwf hin, read_initHeader_outside hwf hin, hv a ha]
  | isvalid fmt =>
    obtain ⟨F, hF, -, -, rfl⟩ := ruleOf_isvalid_eq_ok.mp h
    obtain ⟨F', hF', -, -, rfl⟩ := ruleOf_isvalid_eq_ok.mp h'
    obtain rfl : F' = F := Option.some.inj (hF'.symm.trans ((hops.record_eq fmt).trans hF))
    rw [verdict_congr (Config.record_wf hc hF) hops hv]
    refine ⟨?_, by simp [Laws.OwnOpcode.opcodeOf], ?_⟩
    · split
      · rfl
      · exact hst
    · split <;> exact hv
  | getd q o w => exact ruleOf_command_congr (op := .inline ⟨q, o, w⟩) (a := .get) hc rfl hst hops hv h h'
  | setd q o w => exact ruleOf_command_congr (op := .inline ⟨q, o, w⟩) (a := .set) hc rfl hst hops hv h h'

/-- Two runs of one command from states that agree on CFG, the operands and the view. -/
theorem exec_congr (hi : i.wf = true) (hops : SameOperands s s') (hv : SameView s s.mem s'.mem) (h : exec i s = .next t) :
    ∃ t', exec i s' = .next t' ∧ t'.cmd = t.cmd ∧ SameOutcome i s t t' := by
  have hchecks := checksOf_congr (s := beginCommand (encode i) s) (s' := beginCommand (encode i) s') hops i
  obtain ⟨-, -, hcmd⟩ := exec_frame h
  rw [exec_eq] at h
  obtain ⟨hc, hok | ⟨e, he, rfl⟩⟩ := runCommand_eq_next.mp h
  · obtain ⟨t', hok'⟩ := checksOf_eq_ok.mp (hchecks.trans (checksOf_eq_ok.mpr ⟨t, hok⟩))
    have hrun' : exec i s' = .next t' := by rw [exec_eq, runCommand_of_ok (hops.cfg_eq ▸ hc) hok']
    obtain ⟨-, -, hcmd'⟩ := exec_frame hrun'
    exact ⟨t', hrun', hcmd'.trans hcmd.symm,
      ruleOf_congr (s := beginCommand _ s) (s' := beginCommand _ s') hc rfl hops hv hok hok'⟩
  · have he' := checksOf_eq_error.mp (hchecks.trans (checksOf_eq_error.mpr he))
    refine ⟨_, exec_of_raised (hops.cfg_eq ▸ hc) he', rfl, rfl, fun hop => ?_, hv⟩
    rw [raiseError_eq_afterError, afterError, afterError, (Laws.OwnOpcode.statement_all i hi).1, if_pos hop, if_pos hop]

end

/-- Settles O51: the checks see only what the two states agree on, and so does each effect. -/
theorem outcomeDependsOnlyOnOperandsAndView : Obligations.OutcomeDependsOnlyOnOperandsAndView := by
  intro i s s' t hi h hops hv
  obtain ⟨t', h', hcmd, hst, hresult, hview⟩ := exec_congr hi hops hv h
  refine ⟨t', h', hst, hcmd, fun hget => hresult ?_, hview⟩
  exact hget.imp opcodeOf_eq_one.mpr opcodeOf_eq_five.mpr

end Sys2Proof.Machine
end

section
/-! PROOFS. The statements about the machine's invariant, host accesses of M, and abandoned and contended commands (10_state.md
R23, R25; 20_memory.md R60, R71, R79; 70_reset_and_hazards.md R202). Each part of the invariant is followed through the operations
that can change it; a command lists only addresses of its footprint, which the checks of the view keep below 2^AW. -/

namespace Sys2Proof.Machine

/-! ## STATUS -/

/-- Without an error STATUS is legal whatever VALID is. -/
theorem Status.legal_noError (valid : Bool) : Status.Legal ⟨false, valid, 0⟩ := by
  simp [Status.Legal]

theorem Status.legal_ofError (e : ErrCode) : Status.Legal (Status.ofError e) := by
  unfold Status.Legal
  cases e <;> decide

theorem Status.Legal.ecode_eq_zero {st : Status} (h : Status.Legal st) (he : st.err = false) : st.ecode = 0 := by
  obtain ⟨herr, -⟩ := h
  by_contra hne
  rw [herr.mpr hne] at he
  cases he

section
variable {i : Instr} {c : Word} {s t u : State} {aw : Nat}

theorem executeWord_status_legal (h : executeWord c s = .next t) : Status.Legal t.status := by
  rw [executeWord_eq] at h
  obtain ⟨-, hok | ⟨e, -, rfl⟩⟩ := runCommand_eq_next.mp h
  · obtain ⟨i, -, hi⟩ := wordRule_ok hok
    obtain ⟨rfl, -⟩ | ⟨fmt, F, -, -, -, rfl⟩ | ⟨d, -, rfl, -⟩ | ⟨d, -, rfl, -⟩ | ⟨fmt, F, -, -, -, -, -, rfl⟩ := ruleOf_eq_ok hi
    · exact Status.legal_noError false
    · exact Status.legal_noError true
    · exact Status.legal_noError false
    · exact Status.legal_noError false
    · exact Status.legal_noError false
  · exact Status.legal_ofError e

/-! ## M -/

theorem Memory.Legal.write {m : Memory} (h : Memory.Legal aw m) {a : Nat} (ha : a < 2 ^ aw) (v : Byte) :
    Memory.Legal aw (Memory.write m a v) := by
  obtain ⟨hwf, hlt⟩ := h
  refine ⟨Memory.write_wf hwf a v, fun cell hcell => ?_⟩
  obtain hold | rfl := Memory.mem_write hcell
  · exact hlt cell hold
  · exact ha

/-- A memory stays legal when the canonical form does and only existing addresses are added. -/
theorem Memory.Legal.of_mem {m m' : Memory} {l : List Nat} (h : Memory.Legal aw m) (hwf : Memory.wf m')
    (hl : ∀ a ∈ l, a < 2 ^ aw) (hmem : ∀ cell ∈ m', cell ∈ m ∨ cell.1 ∈ l) : Memory.Legal aw m' := by
  obtain ⟨-, hlt⟩ := h
  refine ⟨hwf, fun cell hcell => ?_⟩
  obtain hold | hnew := hmem cell hcell
  · exact hlt cell hold
  · exact hl _ hnew

theorem Memory.Legal.scramble {l : List Nat} (h : Memory.Legal aw s.mem) (hl : ∀ a ∈ l, a < 2 ^ aw) :
    Memory.Legal aw (scramble l s).mem := by
  have ⟨hwf, _⟩ := h
  exact h.of_mem (scramble_wf hwf) hl fun _ => mem_scramble

/-- The footprint of a rule that ends well lists addresses of M only (20_memory.md R62, R69). -/
theorem ruleOf_footprint_lt (hc : s.cfg.wf = true) (h : ruleOf i s = .ok t) {a : Nat} (ha : a ∈ footprint s i) :
    a < 2 ^ s.cfg.aw := by
  obtain rfl | ⟨-, hfits⟩ := ruleOf_view h
  · cases ha
  · obtain ⟨-, hlt⟩ := ruleOf_footprint_inView hc h ha
    exact hlt.trans_le (viewFits_iff.mp hfits)

theorem ruleOf_mem_wf (h : ruleOf i s = .ok t) (hm : Memory.wf s.mem) : Memory.wf t.mem := by
  obtain ⟨rfl, -⟩ | ⟨fmt, F, -, -, -, rfl⟩ | ⟨d, -, rfl, -⟩ | ⟨d, -, rfl, -⟩ | ⟨fmt, F, -, -, -, -, -, rfl⟩ := ruleOf_eq_ok h
  · exact hm
  · exact hm
  · exact hm
  · exact State.insert_mem_wf hm d s.value
  · exact initHeader_wf hm s.base F

/-- A rule that ends well lists no address outside its footprint that was not listed. -/
theorem ruleOf_listed (hc : s.cfg.wf = true) (h : ruleOf i s = .ok t) {cell : Host.Cell} (hcell : cell ∈ t.mem) :
    cell ∈ s.mem ∨ cell.1 ∈ footprint s i := by
  obtain ⟨rfl, -⟩ | ⟨fmt, F, -, -, -, rfl⟩ | ⟨d, -, rfl, -⟩ |
    ⟨d, -, rfl, ⟨fmt, fid, F, rfl, hF, hd⟩ | ⟨rfl, -⟩⟩ | ⟨fmt, F, rfl, hF, -, -, -, rfl⟩ := ruleOf_eq_ok h
  · exact .inl hcell
  · exact .inl hcell
  · exact .inl hcell
  · exact (mem_insertField hcell).imp_right fun hin => (footprint_table hF hd).2 ▸ mem_windowAddrs.mpr hin
  · exact (mem_insertField hcell).imp_right mem_windowAddrs.mpr
  · exact (mem_initHeader (Config.record_wf hc hF) hcell).imp_right (mem_footprint_init hF).mpr

theorem executeWord_mem_legal (h : executeWord c s = .next t) (hm : Memory.Legal s.cfg.aw s.mem) :
    Memory.Legal s.cfg.aw t.mem := by
  rw [executeWord_eq] at h
  obtain ⟨hc, hok | ⟨e, -, rfl⟩⟩ := runCommand_eq_next.mp h
  · obtain ⟨i, -, hi⟩ := wordRule_ok hok
    have ⟨hwf, _⟩ := hm
    exact hm.of_mem (ruleOf_mem_wf hi hwf) (fun _ => ruleOf_footprint_lt (s := beginCommand c s) hc hi)
      fun _ => ruleOf_listed (s := beginCommand c s) hc hi
  · exact hm

/-! ## Touched bytes -/

/-- A word that touches a byte has ended without an error, and decodes. -/
theorem of_mem_touchedBytes {a : Nat} (ha : a ∈ touchedBytes c s u) :
    u.status.err = false ∧ ∃ i, decodeWord c = .ok i ∧ a ∈ footprint s i := by
  unfold touchedBytes at ha
  split at ha
  · cases ha
  · rename_i herr
    split at ha
    · exact ⟨Bool.eq_false_iff.mpr herr, _, ‹_›, ha⟩
    · cases ha

theorem noError_of_touchedBytes (h : touchedBytes c s u ≠ []) : u.status.err = false := by
  obtain ⟨a, ha⟩ := List.exists_mem_of_ne_nil _ h
  obtain ⟨herr, -⟩ := of_mem_touchedBytes ha
  exact herr

/-- Touched bytes are bytes of M. -/
theorem touchedBytes_lt (h : executeWord c s = .next u) : ∀ a ∈ touchedBytes c s u, a < 2 ^ s.cfg.aw := by
  intro a ha
  obtain ⟨herr, i, hd, ha⟩ := of_mem_touchedBytes ha
  rw [executeWord_of_decodes hd] at h
  obtain ⟨hc, hok⟩ := exec_noError_iff.mp ⟨h, herr⟩
  exact ruleOf_footprint_lt (s := beginCommand _ s) hc hok ha

/-- The pending operations have no part in which bytes a word touches. -/
@[simp] theorem touchedBytes_withInbox (c : Word) (s u : State) (l : List BusOp) :
    touchedBytes c { s with inbox := l } u = touchedBytes c s u := rfl

/-! ## Abandoned and contended commands -/

/-- Scramble leaves every register, CFG, the pending operations and the replies. -/
theorem scramble_registers (l : List Nat) (s : State) :
    (scramble l s).status = s.status ∧ (scramble l s).cmd = s.cmd ∧ (scramble l s).result = s.result ∧
    SameOperands s (scramble l s) ∧ (scramble l s).inbox = s.inbox ∧ (scramble l s).replies = s.replies := by
  obtain ⟨m, n, h⟩ := scramble_eq l s
  rw [h]
  exact ⟨rfl, rfl, rfl, ⟨rfl, rfl, rfl, rfl, rfl⟩, rfl, rfl⟩

/-- VALID is free after a contended command, and RESULT is when the word is a GET's or a GETD's. -/
theorem freeOutcome_result_cases (c : Word) (s : State) :
    (opField c = 1 ∨ opField c = 5 → (freeOutcome c s).result = Config.freeResult s.fresh) ∧
    (opField c ≠ 1 → opField c ≠ 5 → (freeOutcome c s).result = s.result) := by
  refine ⟨fun h => ?_, fun h1 h5 => ?_⟩
  · rw [freeOutcome_result, if_pos (by simpa [writesResult] using h)]
  · rw [freeOutcome_result, writesResult_eq_false h1 h5]
    rfl

theorem abandonCommand_of_next (h : executeWord c s = .next u) :
    abandonCommand c s = .next (resetRegisters (scramble (touchedBytes c s u) s)) := by
  simp only [abandonCommand, h]

theorem contendCommand_excluded (h : s.cfg.otherWriters = false) : contendCommand c s = .refused .contentionExcluded := by
  simp [contendCommand, h]

theorem contendCommand_of_untouched (ho : s.cfg.otherWriters = true) (h : executeWord c s = .next u)
    (ht : touchedBytes c s u = []) : contendCommand c s = .next u := by
  simp [contendCommand, ho, h, ht]

theorem contendCommand_of_touched (ho : s.cfg.otherWriters = true) (h : executeWord c s = .next u)
    (ht : touchedBytes c s u ≠ []) : contendCommand c s = .next (scramble (touchedBytes c s u) (freeOutcome c u)) := by
  obtain ⟨a, l, hal⟩ := List.exists_cons_of_ne_nil ht
  simp [contendCommand, ho, h, hal]

/-- Free values enter only where a byte was touched. -/
theorem contendCommand_next_cases (h : contendCommand c s = .next t) :
    ∃ u, executeWord c s = .next u ∧
      (t = u ∨ touchedBytes c s u ≠ [] ∧ t = scramble (touchedBytes c s u) (freeOutcome c u)) := by
  obtain ⟨u, hu, hcases⟩ := contendCommand_eq_next h
  refine ⟨u, hu, ?_⟩
  by_cases ht : touchedBytes c s u = []
  · cases ho : s.cfg.otherWriters with
    | true =>
      rw [contendCommand_of_untouched ho hu ht] at h
      cases h
      exact .inl rfl
    | false =>
      rw [contendCommand_excluded ho] at h
      cases h
  · exact hcases.imp_right fun heq => ⟨ht, heq⟩

/-! ## The invariant, operation by operation -/

/-- The invariant looks at STATUS, M, BUF_BASE and AW only. -/
theorem State.Inv.of_eq (h : State.Inv s) (hst : Status.Legal t.status) (hm : t.mem = s.mem) (hb : t.bufBase = s.bufBase)
    (hcfg : t.cfg = s.cfg) : State.Inv t := by
  obtain ⟨-, hmem, hbase⟩ := h
  refine ⟨hst, by rwa [hm, hcfg], ?_⟩
  rwa [State.base, hb, hcfg]

theorem State.Inv.executeWord (h : State.Inv s) (hx : executeWord c s = .next t) : State.Inv t := by
  have hops := executeWord_sameOperands hx
  refine ⟨executeWord_status_legal hx, ?_, ?_⟩
  · rw [hops.cfg_eq]
    exact executeWord_mem_legal hx h.memory
  · rw [hops.base_eq, hops.cfg_eq]
    exact h.base

theorem State.Inv.scramble (h : State.Inv s) {l : List Nat} (hl : ∀ a ∈ l, a < 2 ^ s.cfg.aw) : State.Inv (scramble l s) := by
  have hmem := h.memory.scramble (s := s) hl
  obtain ⟨m, n, heq⟩ := scramble_eq l s
  rw [heq] at hmem ⊢
  exact ⟨h.status, hmem, h.base⟩

theorem State.Inv.resetRegisters (h : State.Inv s) : State.Inv (resetRegisters s) :=
  ⟨Status.legal_noError false, h.memory, Nat.two_pow_pos s.cfg.aw⟩

theorem State.Inv.freeOutcome (h : State.Inv s) (he : s.status.err = false) : State.Inv (freeOutcome c s) := by
  refine h.of_eq ?_ rfl rfl rfl
  simp only [freeOutcome_status, he, h.status.ecode_eq_zero he]
  exact Status.legal_noError _

/-- BUF_BASE takes the low AW bits of a word (10_state.md R25). -/
theorem maskAddress_toNat (C : Config) (w : Word) : (maskAddress C w).toNat = w.toNat % 2 ^ C.aw := by
  rw [maskAddress, BitVec.toNat_ofNat]
  exact Nat.mod_eq_of_lt ((Nat.mod_le _ _).trans_lt w.isLt)

theorem State.Inv.writeRegister (h : State.Inv s) (off : Nat) (data : Word) : State.Inv (writeRegister s off data) := by
  unfold Machine.writeRegister
  split
  · refine ⟨h.status, h.memory, ?_⟩
    change (maskAddress s.cfg data).toNat < 2 ^ s.cfg.aw
    rw [maskAddress_toNat]
    exact Nat.mod_lt _ (Nat.two_pow_pos _)
  all_goals exact h.of_eq h.status rfl rfl rfl

/-- Every bus operation that answers a next state keeps the invariant. -/
theorem State.Inv.runBusOp {op : BusOp} (h : State.Inv s) (hx : runBusOp op s = .next t) : State.Inv t := by
  cases op with
  | regWrite off size data =>
    simp only [Machine.runBusOp] at hx
    split at hx
    · split at hx
      · exact h.executeWord hx
      · cases hx
        exact h.writeRegister off data
    · cases hx
  | regRead off size =>
    simp only [Machine.runBusOp] at hx
    split at hx <;> cases hx
    exact h.of_eq h.status rfl rfl rfl
  | memWrite addr data =>
    obtain ⟨haddr, rfl⟩ := hostAccess_eq_next hx
    exact ⟨h.status, h.memory.write haddr data, h.base⟩
  | memRead addr =>
    obtain ⟨-, rfl⟩ := hostAccess_eq_next hx
    exact h.of_eq h.status rfl rfl rfl
  | reset =>
    cases hx
    exact h.resetRegisters
  | resetDuring c =>
    obtain ⟨u, hu, rfl⟩ := abandonCommand_eq_next hx
    exact (h.scramble (touchedBytes_lt hu)).resetRegisters
  | contendedCmd c =>
    obtain ⟨u, hu, rfl | ⟨ht, rfl⟩⟩ := contendCommand_next_cases hx
    · exact h.executeWord hu
    · have hfree := (h.executeWord hu).freeOutcome (c := c) (noError_of_touchedBytes ht)
      refine hfree.scramble ?_
      rw [freeOutcome_cfg, executeWord_cfg hu]
      exact touchedBytes_lt hu

theorem State.Inv.step (h : State.Inv s) (hx : step s = .next t) : State.Inv t := by
  have hc := cfg_of_step hx
  cases hin : s.inbox with
  | nil =>
    rw [step_idle hc hin] at hx
    cases hx
    exact h
  | cons op rest =>
    rw [step_cons hc hin] at hx
    exact (h.of_eq (t := { s with inbox := rest }) h.status rfl rfl rfl).runBusOp hx

/-- The state right after reset meets the invariant under every configuration. -/
theorem inv_resetWith (C : Config) : State.Inv (State.resetWith C) :=
  ⟨Status.legal_noError false, ⟨⟨List.Pairwise.nil, nofun⟩, nofun⟩, Nat.two_pow_pos C.aw⟩

/-! ## Host accesses of M -/

theorem Region.holds_eq_false {r : Region} {a : Nat} : Region.holds r a = false ↔ ¬(r.base ≤ a ∧ a < r.base + r.size) := by
  rw [← Bool.not_eq_true, Region.holds, Bool.and_eq_true, decide_eq_true_eq, decide_eq_true_eq]

/-- Plain memory outside the register block answers. -/
theorem hostAccess_plain {a : Nat} (ha : a < 2 ^ s.cfg.aw) (hreg : ¬(s.cfg.regBase ≤ a ∧ a < s.cfg.regBase + 64))
    (hdev : ∀ r ∈ s.cfg.notPlain, ¬(r.base ≤ a ∧ a < r.base + r.size)) (go : State) : hostAccess s a go = .next go := by
  have hblock : Region.holds (registerBlock s.cfg) a = false := Region.holds_eq_false.mpr hreg
  have hany : s.cfg.notPlain.any (fun r => Region.holds r a) = false :=
    List.any_eq_false.mpr fun r hr => Bool.not_eq_true _ ▸ Region.holds_eq_false.mpr (hdev r hr)
  rw [hostAccess, if_neg ha.not_ge, hblock, hany]
  rfl

theorem hostAccess_past {a : Nat} (ha : 2 ^ s.cfg.aw ≤ a) (go : State) : hostAccess s a go = .fault (.noSuchAddress a) := by
  rw [hostAccess, if_pos ha]

end

/-! ## The statements -/

/-- Settles O52: each bus operation keeps STATUS legal, lists addresses of M only and masks BUF_BASE. -/
theorem everyStepKeepsTheInvariant : Obligations.EveryStepKeepsTheInvariant := fun _ _ h hx => h.step hx

/-- Settles O2: nothing is listed, STATUS is clear and BUF_BASE is 0. -/
theorem resetStateMeetsInvariant : Obligations.ResetStateMeetsInvariant :=
  ⟨⟨inv_resetWith Config.default, by decide⟩, fun C _ => inv_resetWith C⟩

/-- Settles O54: a host access is `hostAccess`, which answers over plain memory and faults past M. -/
theorem hostAccessesReadAndWriteMemory : Obligations.HostAccessesReadAndWriteMemory := by
  refine fun s a b rest hc => ⟨fun ha hreg hdev => ⟨fun hin => ?_, fun hin => ?_⟩, fun ha hin => ?_⟩
  · rw [step_cons hc hin]
    exact hostAccess_plain (s := { s with inbox := rest }) ha hreg hdev _
  · rw [step_cons hc hin]
    exact hostAccess_plain (s := { s with inbox := rest }) ha hreg hdev _
  · obtain hin | hin := hin <;> rw [step_cons hc hin] <;> exact hostAccess_past (s := { s with inbox := rest }) ha _

/-- Settles O55: the step resets the registers over the scrambled footprint. -/
theorem resetAbandonsARunningCommand : Obligations.ResetAbandonsARunningCommand := by
  intro s u c rest hc hin hu
  have hstep : step s = _ := (step_cons hc hin).trans (abandonCommand_of_next hu)
  rw [touchedBytes_withInbox] at hstep
  exact ⟨_, hstep, readRegister_resetRegisters _, scramble_cfg _ _, fun a ha => read_scramble_other ha _,
    fun a ha => read_scramble_listed ha _⟩

/-- Settles O56: the step scrambles the touched bytes of the free outcome. -/
theorem contendedCommandLeavesFreeValuesInItsFootprint : Obligations.ContendedCommandLeavesFreeValuesInItsFootprint := by
  intro s u c rest hc hin hu
  have hstep : step s = contendCommand c { s with inbox := rest } := step_cons hc hin
  refine ⟨fun ho => hstep.trans (contendCommand_excluded ho), fun ho ht => hstep.trans (contendCommand_of_untouched ho hu ht),
    fun ho ht => ⟨_, hstep.trans (contendCommand_of_touched ho hu ht), ?_⟩⟩
  rw [touchedBytes_withInbox]
  have herr := noError_of_touchedBytes ht
  obtain ⟨hst, hcmd, hresult, hops, hinbox, hreplies⟩ := scramble_registers (touchedBytes c s u) (freeOutcome c u)
  obtain ⟨hfree, hkept⟩ := freeOutcome_result_cases c u
  refine ⟨hcmd, hops, by rw [hst]; exact herr, by rw [hst]; exact (executeWord_status_legal hu).ecode_eq_zero herr, hinbox,
    hreplies, ⟨u.fresh, by rw [hst]; rfl⟩, fun hop => ⟨u.fresh, hresult.trans (hfree hop)⟩,
    fun h1 h5 => hresult.trans (hkept h1 h5), fun a ha => read_scramble_other ha _, fun a ha => read_scramble_listed ha _⟩

end Sys2Proof.Machine
end

section
/-! PROOFS. The statements about the priority of errors (60_exceptions.md R180, R190). A word's rule is followed through the
errors in the order of R190: at each it raises that error, when the error's cause applies, or goes on without it. What is reported,
and how the rule ends without a cause, is then read off by induction on the list of errors. -/

namespace Sys2Proof

/-- A word whose every bit is 0 is the word 0. -/
theorem eq_zero_of_op0 {c : Word} (hop : opField c = 0) (hlow : bitField c 27 0 = 0) : c = 0 := by
  by_contra h0
  have hrsvd := decodeWord_op0_reserved hop h0
  rw [decodeWord_op0 hop, if_pos hlow] at hrsvd
  cases hrsvd

end Sys2Proof

namespace Sys2Proof.Machine

/-! ## Raising the first cause of a list -/

/-- Of the errors listed, `x` raises the first whose cause applies; when none applies, `last x` says how it ends. -/
inductive RaisesFirst (cause : ErrCode → Prop) (last : Except Stop State → Prop) : List ErrCode → Except Stop State → Prop
  | raised {e : ErrCode} {es : List ErrCode} : cause e → RaisesFirst cause last (e :: es) (.error (.raised e))
  | next {e : ErrCode} {es : List ErrCode} {x : Except Stop State} :
      ¬cause e → RaisesFirst cause last es x → RaisesFirst cause last (e :: es) x
  | done {x : Except Stop State} : last x → RaisesFirst cause last [] x

namespace RaisesFirst

variable {cause : ErrCode → Prop} {last : Except Stop State → Prop} {es : List ErrCode} {x : Except Stop State} {e : ErrCode}

/-- What is raised has its cause, and no cause that applies comes before it. -/
theorem of_raised (h : RaisesFirst cause last es x) (hsorted : es.Pairwise fun e e' => e.priority ≤ e'.priority)
    (hlast : ¬last (.error (.raised e))) (hx : x = .error (.raised e)) :
    cause e ∧ ∀ e' ∈ es, cause e' → e.priority ≤ e'.priority := by
  induction h with
  | raised hcause =>
    cases hx
    obtain ⟨hfirst, -⟩ := List.pairwise_cons.mp hsorted
    refine ⟨hcause, fun e' he' _ => ?_⟩
    obtain rfl | he' := List.mem_cons.mp he'
    · exact le_rfl
    · exact hfirst e' he'
  | next hnot _ ih =>
    obtain ⟨-, hrest⟩ := List.pairwise_cons.mp hsorted
    obtain ⟨hcause, hmin⟩ := ih hrest hx
    refine ⟨hcause, fun e' he' hc' => ?_⟩
    obtain rfl | he' := List.mem_cons.mp he'
    · exact absurd hc' hnot
    · exact hmin e' he' hc'
  | done hdone => exact absurd (hx ▸ hdone) hlast

/-- Some listed error is raised when one of them has its cause. -/
theorem exists_raised (h : RaisesFirst cause last es x) (he : e ∈ es) (hcause : cause e) :
    ∃ e', x = .error (.raised e') := by
  induction h with
  | raised => exact ⟨_, rfl⟩
  | next hnot _ ih =>
    obtain rfl | he := List.mem_cons.mp he
    · exact absurd hcause hnot
    · exact ih he
  | done => cases he

/-- Where no cause applies the rule ends as it does after its last check. -/
theorem of_no_cause (h : RaisesFirst cause last es x) (hnone : ∀ e ∈ es, ¬cause e) : last x := by
  induction h with
  | raised hcause => exact absurd hcause (hnone _ List.mem_cons_self)
  | next _ _ ih => exact ih fun e he => hnone e (List.mem_cons_of_mem _ he)
  | done hdone => exact hdone

/-- A check that fails exactly on the cause of its own error comes first in the list. -/
theorem bind {α : Type} {y : Except Stop α} {f : α → Except Stop State}
    (hy : ∀ st, y = .error st ↔ cause e ∧ st = .raised e) (hf : ∀ a, y = .ok a → RaisesFirst cause last es (f a)) :
    RaisesFirst cause last (e :: es) (y >>= f) := by
  cases y with
  | ok a => exact next (fun hc => nomatch (hy _).mpr ⟨hc, rfl⟩) (hf a rfl)
  | error st =>
    obtain ⟨hc, rfl⟩ := (hy st).mp rfl
    exact raised hc

end RaisesFirst

/-! ## The causes of a word's errors as the failures of checks -/

/-- The errors in the order of 60_exceptions.md R190. -/
def ErrCode.inOrder : List ErrCode := [.opcode, .rsvd, .format, .field, .desc, .nullBase, .view, .bounds]

theorem ErrCode.mem_inOrder (e : ErrCode) : e ∈ ErrCode.inOrder := by
  cases e <;> decide

theorem ErrCode.inOrder_sorted : ErrCode.inOrder.Pairwise fun e e' => e.priority ≤ e'.priority := by
  decide

section
variable {c : Word} {s : State} {i : Instr} {e : ErrCode}

theorem baseOk_eq_false : baseOk s = false ↔ s.cfg.nullBaseCheck = true ∧ s.base = 0 := by
  simp [baseOk]

theorem viewFits_eq_false : viewFits s = false ↔ 2 ^ s.cfg.aw < s.base + s.len := by
  simp [viewFits]

theorem inBounds_eq_false {d : Desc} : inBounds s d = false ↔ ¬WindowFits s d := by
  rw [← Bool.not_eq_true, inBounds_iff]
  rfl

/-- How a word that raises no error ends: with a next state, or refused over a view that is not plain memory, which NOP does
not look at (20_memory.md R70). -/
def EndsWithoutError (c : Word) (s : State) (x : Except Stop State) : Prop :=
  ((c = 0 ∨ viewPlain s = true) ∧ ∃ t, x = .ok t) ∨ (c ≠ 0 ∧ viewPlain s = false ∧ x = .error (.refused .viewNotPlain))

/-- Of the errors listed, `x` raises the first whose cause applies to the word, or ends without an error. -/
abbrev RaisesFirstCause (c : Word) (s : State) : List ErrCode → Except Stop State → Prop :=
  RaisesFirst (Cause c s) (EndsWithoutError c s)

theorem endsWithoutError_ok (h : c = 0 ∨ viewPlain s = true) (t : State) : EndsWithoutError c s (.ok t) :=
  .inl ⟨h, t, rfl⟩

/-- The last check of every command but NOP. -/
theorem endsWithoutError_plain (h1 : 1 ≤ opField c) (t : State) : EndsWithoutError c s (do checkPlain s; pure t) := by
  cases hp : viewPlain s with
  | true =>
    rw [checkPlain_eq_ok (u := ()).mpr hp]
    exact endsWithoutError_ok (.inr hp) t
  | false =>
    have h0 : c ≠ 0 := by
      rintro rfl
      exact absurd h1 (by decide)
    rw [checkPlain_eq_error.mpr ⟨hp, rfl⟩]
    exact .inr ⟨h0, hp, rfl⟩

/-- The checks of the view, for a word of any command but NOP (20_memory.md R62). -/
theorem RaisesFirst.view {es : List ErrCode} {f : Unit → Except Stop State} (h1 : 1 ≤ opField c) (h6 : opField c ≤ 6)
    (hf : RaisesFirstCause c s es (f ())) : RaisesFirstCause c s (.nullBase :: .view :: es) (checkView s >>= f) := by
  rw [checkView, bind_assoc]
  refine .bind (fun st => ?_) fun _ _ => .bind (fun st => ?_) fun _ _ => hf
  · rw [require_eq_error, baseOk_eq_false]
    simp [Cause, h1, h6]
  · rw [require_eq_error, viewFits_eq_false]
    simp [Cause, h1, h6]

/-- The end of a field command whose only check left after the view's is that of its window. -/
theorem FieldAction.raisesFirst (a : FieldAction) {d : Desc} (h1 : 1 ≤ opField c) (h6 : opField c ≤ 6)
    (hd : Cause c s .bounds ↔ ¬WindowFits s d) : RaisesFirstCause c s [.nullBase, .view, .bounds] (a.run d s) := by
  have hbounds (st : Stop) : checkBounds s d = .error st ↔ Cause c s .bounds ∧ st = .raised .bounds := by
    rw [checkBounds, require_eq_error, inBounds_eq_false, hd]
  cases a with
  | get => exact .view h1 h6 (.bind hbounds fun _ _ => .done (endsWithoutError_plain h1 _))
  | set => exact .view h1 h6 (.bind hbounds fun _ _ => .done (endsWithoutError_plain h1 _))

theorem Cause.format_iff (h1 : 1 ≤ opField c) (h4 : opField c ≤ 4) :
    Cause c s .format ↔ s.record (bitField c 27 24) = none := by
  simp [Cause, h1, h4]

theorem Cause.field_iff (hop : opField c = 1 ∨ opField c = 2) {F : Format} (hF : s.record (bitField c 27 24) = some F) :
    Cause c s .field ↔ F.fields[bitField c 23 16]? = none := by
  simp [Cause, hop, hF]

theorem Cause.desc_iff (hop : opField c = 5 ∨ opField c = 6) : Cause c s .desc ↔ ¬DescLegal (inlineDesc c) := by
  simp [Cause, hop]

theorem Cause.not_field (h1 : opField c ≠ 1) (h2 : opField c ≠ 2) : ¬Cause c s .field := by
  simp [Cause, h1, h2]

theorem Cause.not_desc (h5 : opField c ≠ 5) (h6 : opField c ≠ 6) : ¬Cause c s .desc := by
  simp [Cause, h5, h6]

theorem Cause.bounds_table_iff (hop : opField c = 1 ∨ opField c = 2) {d : Desc}
    (hd : FieldIs s (bitField c 27 24) (bitField c 23 16) d) : Cause c s .bounds ↔ ¬WindowFits s d := by
  have hunique : ∀ e, FieldIs s (bitField c 27 24) (bitField c 23 16) e → e = d := by
    rintro e ⟨F', hF', he⟩
    obtain ⟨F, hF, hd⟩ := hd
    obtain rfl : F' = F := Option.some.inj (hF'.symm.trans hF)
    exact Option.some.inj (he.symm.trans hd)
  constructor
  · rintro (⟨-, e, he, hfit⟩ | ⟨h56, -⟩ | ⟨h3, -⟩)
    · exact hunique e he ▸ hfit
    · omega
    · omega
  · exact fun hfit => .inl ⟨hop, d, hd, hfit⟩

theorem Cause.bounds_inline_iff (hop : opField c = 5 ∨ opField c = 6) :
    Cause c s .bounds ↔ ¬WindowFits s (inlineDesc c) := by
  have h3 : opField c ≠ 3 := by omega
  have h12 : ¬(opField c = 1 ∨ opField c = 2) := by omega
  simp [Cause, hop, h3, h12]

theorem Cause.bounds_init_iff (hop : opField c = 3) {F : Format} (hF : s.record (bitField c 27 24) = some F) :
    Cause c s .bounds ↔ ¬F.hlen ≤ s.len := by
  simp [Cause, hop, hF, Format.hlen]

theorem Cause.not_bounds_isvalid (hop : opField c = 4) : ¬Cause c s .bounds := by
  simp [Cause, hop]

/-! ## Each rule raises its first cause -/

/-- The errors a rule itself can raise, in the order of 60_exceptions.md R190. -/
def ErrCode.ofRules : List ErrCode := [.format, .field, .desc, .nullBase, .view, .bounds]

theorem findFormat_error_iff_cause (h1 : 1 ≤ opField c) (h4 : opField c ≤ 4) (st : Stop) :
    findFormat s (bitField c 27 24) = .error st ↔ Cause c s .format ∧ st = .raised .format := by
  rw [findFormat_eq_error, Cause.format_iff h1 h4]

/-- GET and SET (40_field_access.md R104, R105). -/
theorem raisesFirst_table (hop : opField c = 1 ∨ opField c = 2) (a : FieldAction) :
    RaisesFirstCause c s ErrCode.ofRules (do a.run (← resolve s (bitField c 27 24) (bitField c 23 16)) s) := by
  rw [resolve, bind_assoc]
  refine .bind (findFormat_error_iff_cause (by omega) (by omega)) fun F hF => ?_
  have hF := findFormat_eq_ok.mp hF
  refine .bind (fun st => by rw [findField_eq_error, Cause.field_iff hop hF]) fun d hd => ?_
  have hd : FieldIs s (bitField c 27 24) (bitField c 23 16) d := ⟨F, hF, findField_eq_ok.mp hd⟩
  exact .next (Cause.not_desc (by omega) (by omega)) (a.raisesFirst (by omega) (by omega) (Cause.bounds_table_iff hop hd))

/-- GETD and SETD (40_field_access.md R106, R107). -/
theorem raisesFirst_inline (hop : opField c = 5 ∨ opField c = 6) (a : FieldAction) :
    RaisesFirstCause c s ErrCode.ofRules (do checkDesc (inlineDesc c); a.run (inlineDesc c) s) := by
  have hformat : ¬Cause c s .format := fun ⟨_, h4, _⟩ => by omega
  refine .next hformat (.next (Cause.not_field (by omega) (by omega)) (.bind (fun st => ?_) fun _ _ => ?_))
  · rw [checkDesc_eq_error, Cause.desc_iff hop]
  · exact a.raisesFirst (by omega) (by omega) (Cause.bounds_inline_iff hop)

/-- INIT (41_format_ops.md R140). -/
theorem raisesFirst_init (hop : opField c = 3) :
    RaisesFirstCause c s ErrCode.ofRules (ruleOf (.init (bitField c 27 24)) s) := by
  refine .bind (findFormat_error_iff_cause (by omega) (by omega)) fun F hF => ?_
  have hF := findFormat_eq_ok.mp hF
  refine .next (Cause.not_field (by omega) (by omega)) (.next (Cause.not_desc (by omega) (by omega))
    (.view (by omega) (by omega) (.bind (fun st => ?_) fun _ _ => .done (endsWithoutError_plain (by omega) _))))
  rw [require_eq_error, decide_eq_false_iff_not, Cause.bounds_init_iff hop hF]

/-- ISVALID (41_format_ops.md R141), which has no check of bounds. -/
theorem raisesFirst_isvalid (hop : opField c = 4) :
    RaisesFirstCause c s ErrCode.ofRules (ruleOf (.isvalid (bitField c 27 24)) s) := by
  refine .bind (findFormat_error_iff_cause (by omega) (by omega)) fun F _ => ?_
  exact .next (Cause.not_field (by omega) (by omega)) (.next (Cause.not_desc (by omega) (by omega))
    (.view (by omega) (by omega) (.next (Cause.not_bounds_isvalid hop) (.done (endsWithoutError_plain (by omega) _)))))

/-- NOP (42_nop.md R170), which has no check. -/
theorem raisesFirst_nop (hop : opField c = 0) (hrsvd : ¬Cause c s .rsvd) :
    RaisesFirstCause c s ErrCode.ofRules (ruleOf .nop s) := by
  have h0 : c = 0 := not_not.mp fun h0 => hrsvd (.inl ⟨hop, fun hz => h0 (eq_zero_of_op0 hop hz)⟩)
  have hnone : ∀ e ∈ ErrCode.ofRules, ¬Cause c s e := by
    simp [ErrCode.ofRules, Cause, hop]
  simp only [ErrCode.ofRules, List.forall_mem_cons] at hnone
  obtain ⟨hformat, hfield, hdesc, hnull, hview, hbounds, -⟩ := hnone
  exact .next hformat (.next hfield (.next hdesc (.next hnull (.next hview (.next hbounds
    (.done (endsWithoutError_ok (.inl h0) s)))))))

theorem wordRule_of_decodes (h : decodeWord c = .ok i) : wordRule c = ruleOf i := by
  rw [wordRule, h]

theorem wordRule_of_decodeError {e : DecodeError} (h : decodeWord c = .error e) (s : State) :
    wordRule c s = .error (.raised (DecodeError.errCode e)) := by
  rw [wordRule, h]

/-- A word of a legal opcode with no reserved bit set runs its command's rule, which raises the first cause. -/
theorem wordRule_raisesFirst_of_legal (hop : ¬Cause c s .opcode) (hrsvd : ¬Cause c s .rsvd) :
    RaisesFirstCause c s ErrCode.ofRules (wordRule c s) := by
  have hlt : opField c < 7 := Nat.not_le.mp hop
  obtain h | h | h | h | h | h | h : opField c = 0 ∨ opField c = 1 ∨ opField c = 2 ∨ opField c = 3 ∨ opField c = 4 ∨
    opField c = 5 ∨ opField c = 6 := by omega
  · have hzero : bitField c 27 0 = 0 := not_not.mp fun hz => hrsvd (.inl ⟨h, hz⟩)
    rw [wordRule_of_decodes ((decodeWord_op0 h).trans (if_pos hzero))]
    exact raisesFirst_nop h hrsvd
  · have hzero : bitField c 15 0 = 0 := not_not.mp fun hz => hrsvd (.inr (.inl ⟨.inl h, hz⟩))
    rw [wordRule_of_decodes ((decodeWord_op1 h).trans (if_pos hzero))]
    exact raisesFirst_table (.inl h) .get
  · have hzero : bitField c 15 0 = 0 := not_not.mp fun hz => hrsvd (.inr (.inl ⟨.inr h, hz⟩))
    rw [wordRule_of_decodes ((decodeWord_op2 h).trans (if_pos hzero))]
    exact raisesFirst_table (.inr h) .set
  · have hzero : bitField c 23 0 = 0 := not_not.mp fun hz => hrsvd (.inr (.inr (.inl ⟨.inl h, hz⟩)))
    rw [wordRule_of_decodes ((decodeWord_op3 h).trans (if_pos hzero))]
    exact raisesFirst_init h
  · have hzero : bitField c 23 0 = 0 := not_not.mp fun hz => hrsvd (.inr (.inr (.inl ⟨.inr h, hz⟩)))
    rw [wordRule_of_decodes ((decodeWord_op4 h).trans (if_pos hzero))]
    exact raisesFirst_isvalid h
  · have hzero : bitField c 27 16 = 0 := not_not.mp fun hz => hrsvd (.inr (.inr (.inr ⟨.inl h, hz⟩)))
    rw [wordRule_of_decodes ((decodeWord_op5 h).trans (if_pos hzero))]
    exact raisesFirst_inline (.inl h) .get
  · have hzero : bitField c 27 16 = 0 := not_not.mp fun hz => hrsvd (.inr (.inr (.inr ⟨.inr h, hz⟩)))
    rw [wordRule_of_decodes ((decodeWord_op6 h).trans (if_pos hzero))]
    exact raisesFirst_inline (.inr h) .set

/-- Every command word raises the first of its causes in the order of 60_exceptions.md R190, and nothing without a cause. -/
theorem wordRule_raisesFirst (c : Word) (s : State) : RaisesFirstCause c s ErrCode.inOrder (wordRule c s) := by
  by_cases hop : Cause c s .opcode
  · rw [wordRule_of_decodeError (decodeWord_illegal hop)]
    exact .raised hop
  · refine .next hop ?_
    by_cases hrsvd : Cause c s .rsvd
    · rw [wordRule_of_decodeError (decodeWord_of_rsvd_cause hrsvd)]
      exact .raised hrsvd
    · exact .next hrsvd (wordRule_raisesFirst_of_legal hop hrsvd)

theorem not_endsWithoutError_raised : ¬EndsWithoutError c s (.error (.raised e)) := by
  simp [EndsWithoutError]

/-- A raised error has its cause, and the causes that apply come no earlier. -/
theorem cause_of_wordRule_raised (h : wordRule c s = .error (.raised e)) :
    Cause c s e ∧ ∀ e', Cause c s e' → e.priority ≤ e'.priority := by
  obtain ⟨hcause, hmin⟩ := (wordRule_raisesFirst c s).of_raised ErrCode.inOrder_sorted not_endsWithoutError_raised h
  exact ⟨hcause, fun e' => hmin e' e'.mem_inOrder⟩

theorem ErrCode.eq_of_priority_eq {e e' : ErrCode} (h : e.priority = e'.priority) :
    e = e' ∨ (e = .field ∧ e' = .desc) ∨ (e = .desc ∧ e' = .field) := by
  cases e <;> cases e' <;> simp [ErrCode.priority] at h ⊢

/-- E_FIELD and E_DESC share a place in the order, but no word has both causes. -/
theorem Cause.eq_of_priority_eq {e' : ErrCode} (h : Cause c s e) (h' : Cause c s e') (hp : e.priority = e'.priority) :
    e = e' := by
  have hboth : ¬(Cause c s .field ∧ Cause c s .desc) := by
    rintro ⟨⟨hop, -⟩, hop', -⟩
    omega
  obtain heq | ⟨rfl, rfl⟩ | ⟨rfl, rfl⟩ := ErrCode.eq_of_priority_eq hp
  · exact heq
  · exact absurd ⟨h, h'⟩ hboth
  · exact absurd ⟨h', h⟩ hboth

/-- The first cause that applies is the error raised. -/
theorem wordRule_of_first_cause (h : Cause c s e) (hmin : ∀ e', Cause c s e' → e.priority ≤ e'.priority) :
    wordRule c s = .error (.raised e) := by
  obtain ⟨e', he'⟩ := (wordRule_raisesFirst c s).exists_raised e.mem_inOrder h
  obtain ⟨hcause, hmin'⟩ := cause_of_wordRule_raised he'
  rw [he', hcause.eq_of_priority_eq h ((hmin' e h).antisymm (hmin e' hcause))]

/-- A word without an error leaves STATUS with ERR and ECODE clear, and itself in CMD. -/
theorem executeWord_of_wordRule_ok {t : State} (hc : s.cfg.wf = true) (h : wordRule c (beginCommand c s) = .ok t) :
    executeWord c s = .next t ∧ t.status.err = false ∧ t.status.ecode = 0 ∧ t.cmd = c := by
  have hrun : executeWord c s = .next t := (executeWord_eq c s).trans (runCommand_of_ok hc h)
  obtain ⟨i, -, hi⟩ := wordRule_ok h
  have herr := ruleOf_noError hi
  obtain ⟨hcmd, -⟩ := ruleOf_environment hi
  exact ⟨hrun, herr, (executeWord_status_legal hrun).ecode_eq_zero herr, hcmd⟩

theorem executeWord_of_refused {r : Refusal} (hc : s.cfg.wf = true) (h : wordRule c (beginCommand c s) = .error (.refused r)) :
    executeWord c s = .refused r := by
  rw [executeWord_eq, runCommand, if_pos hc, h]

/-- Without a cause the word ends as after its last check, the one of plain memory. -/
theorem executeWord_of_no_cause (hc : s.cfg.wf = true) (hnone : ∀ e, ¬Cause c s e) :
    ((c = 0 ∨ viewPlain s = true) →
      ∃ t, executeWord c s = .next t ∧ t.status.err = false ∧ t.status.ecode = 0 ∧ t.cmd = c) ∧
    (c ≠ 0 → viewPlain s = false → executeWord c s = .refused .viewNotPlain) := by
  have hend : EndsWithoutError c s (wordRule c (beginCommand c s)) :=
    (wordRule_raisesFirst c (beginCommand c s)).of_no_cause fun e _ => hnone e
  obtain ⟨hplain, t, ht⟩ | ⟨h0, hnotPlain, hrefused⟩ := hend
  · exact ⟨fun _ => ⟨t, executeWord_of_wordRule_ok hc ht⟩,
      fun h0 hp => absurd hplain (not_or.mpr ⟨h0, Bool.eq_false_iff.mp hp⟩)⟩
  · exact ⟨fun h => absurd h (not_or.mpr ⟨h0, Bool.eq_false_iff.mp hnotPlain⟩),
      fun _ _ => executeWord_of_refused hc hrefused⟩

end

/-! ## The statements -/

/-- Settles O19: the word's rule raises its first cause, and an error leaves what R181 gives. -/
theorem firstErrorInPriorityOrderIsReported : Obligations.FirstErrorInPriorityOrderIsReported := by
  intro s c e rest hc hin hcause hmin
  have hrule := wordRule_of_first_cause (s := beginCommand c { s with inbox := rest }) hcause hmin
  rw [step_cmd hc hin, executeWord_eq, runCommand_of_raised (s := { s with inbox := rest }) hc hrule, raiseError_eq_afterError]

/-- Settles O20: ERR is set by a raised error only, and what the rule raises has its cause. -/
theorem reportedErrorHasItsCause : Obligations.ReportedErrorHasItsCause := by
  intro s t c rest hin hstep herr
  rw [step_cmd (cfg_of_step hstep) hin, executeWord_eq] at hstep
  obtain ⟨-, hok | ⟨e, he, rfl⟩⟩ := runCommand_eq_next.mp hstep
  · obtain ⟨i, -, hi⟩ := wordRule_ok hok
    rw [ruleOf_noError hi] at herr
    cases herr
  · obtain ⟨hcause, -⟩ := cause_of_wordRule_raised he
    exact ⟨e, hcause, rfl⟩

/-- Settles O21: with no cause the rule ends as after its last check, the one of plain memory. -/
theorem withoutACauseNoErrorIsReported : Obligations.WithoutACauseNoErrorIsReported := by
  intro s c rest hc hin hnone
  rw [step_cmd hc hin]
  exact executeWord_of_no_cause (s := { s with inbox := rest }) hc hnone

end Sys2Proof.Machine
end

section
/-! PROOFS. The statements about STATUS and the operand registers (10_state.md R23, R25 to R27) and about what a command leaves when
it completes (40_field_access.md R104 to R107, 41_format_ops.md R140, R141), and that the default records are well-formed (10_state.md
R45). A read of STATUS is split at bit 4; a field command over a ready view is its action's effect. -/

namespace Sys2Proof.Machine

/-! ## STATUS as a word (10_state.md R23) -/

/-- ERR and VALID are the two low bits, ECODE stands from bit 4. -/
theorem Status.testBit_value (st : Status) (k : Nat) :
    (st.err.toNat + 2 * st.valid.toNat + 16 * st.ecode.toNat).testBit k =
      if k < 4 then (st.err.toNat + 2 * st.valid.toNat).testBit k else st.ecode.getLsbD (k - 4) := by
  have hlow : st.err.toNat + 2 * st.valid.toNat < 2 ^ 4 := by
    have herr := st.err.toNat_le
    have hvalid := st.valid.toNat_le
    omega
  rw [Nat.add_comm]
  exact Nat.testBit_two_pow_mul_add st.ecode.toNat hlow k

theorem testBit_two_flags (b0 b1 : Bool) (k : Nat) :
    (b0.toNat + 2 * b1.toNat).testBit k = if k = 0 then b0 else if k = 1 then b1 else false := by
  match k with
  | 0 => cases b0 <;> cases b1 <;> rfl
  | 1 => cases b0 <;> cases b1 <;> rfl
  | k + 2 =>
    have hlt : b0.toNat + 2 * b1.toNat < 2 ^ (k + 2) := by
      have h0 := b0.toNat_le
      have h1 := b1.toNat_le
      have hpow : 2 ^ 2 ≤ 2 ^ (k + 2) := Nat.pow_le_pow_right (by decide) (by omega)
      omega
    exact Nat.testBit_lt_two_pow hlt

theorem Status.getLsbD_toWord (st : Status) (k : Nat) :
    st.toWord.getLsbD k =
      if k = 0 then st.err
      else if k = 1 then st.valid
      else if 4 ≤ k ∧ k ≤ 7 then st.ecode.getLsbD (k - 4)
      else false := by
  rw [Status.toWord, BitVec.getLsbD_ofNat, Status.testBit_value, testBit_two_flags]
  by_cases hlow : k < 4
  · have hnot : ¬(4 ≤ k ∧ k ≤ 7) := by omega
    rw [if_pos hlow, if_neg hnot, decide_eq_true (by omega), Bool.true_and]
  · rw [if_neg hlow, if_neg (by omega), if_neg (by omega)]
    by_cases hhigh : k ≤ 7
    · rw [if_pos ⟨by omega, hhigh⟩, decide_eq_true (by omega), Bool.true_and]
    · rw [if_neg (by omega), BitVec.getLsbD_of_ge _ _ (by omega), Bool.and_false]

/-- Settles O3: bit by bit the word of STATUS is its two flags below ECODE. -/
theorem statusWordHasItsFields : Obligations.StatusWordHasItsFields := fun s => s.status.getLsbD_toWord

/-! ## Operand registers (10_state.md R25 to R27) -/

/-- A write of an operand register leaves what every other slot reads. -/
theorem readRegister_writeRegister_other (s : State) {off off' : Nat} (data : Word) (h : off' ≠ off) :
    readRegister (writeRegister s off data) off' = readRegister s off' := by
  unfold writeRegister
  split
  case h_5 => rfl
  all_goals
    unfold readRegister
    split
    all_goals simp_all -- the slot written is excluded by `h`; each other shows a register that the write leaves

theorem writeRegister_frame (s : State) (off : Nat) (data : Word) :
    (writeRegister s off data).mem = s.mem ∧ (writeRegister s off data).cfg = s.cfg ∧
    SameEnvironment s (writeRegister s off data) := by
  unfold writeRegister
  split <;> exact ⟨rfl, rfl, rfl, rfl, rfl⟩

/-- A write of a register other than CMD is taken in one step. -/
theorem step_regWrite {s : State} {off : Nat} {data : Word} {rest : List BusOp} (hc : s.cfg.wf = true)
    (hin : s.inbox = .regWrite off .word data :: rest) (ha : accessDefined off .word = true) (h8 : off ≠ 0x08) :
    step s = .next (writeRegister { s with inbox := rest } off data) := by
  rw [step_cons hc hin, runBusOp_regWrite data _ ha h8]

/-- Settles O5: BUF_BASE takes the word masked to AW bits, the other three take it as it is. -/
theorem operandRegistersReadBack : Obligations.OperandRegistersReadBack := by
  intro s off data rest hc hoff hin
  have ha : accessDefined off .word = true := accessDefined_iff.mpr ⟨rfl, by omega, by omega⟩
  obtain ⟨hmem, hcfg, henv⟩ := writeRegister_frame { s with inbox := rest } off data
  obtain ⟨hinbox, hreplies, hfresh⟩ := henv
  refine ⟨_, step_regWrite hc hin ha (by omega), hmem, hcfg, hinbox, hreplies, hfresh, ?_, ?_, fun off' h =>
    readRegister_writeRegister_other _ data h⟩
  · rintro rfl
    exact maskAddress_toNat s.cfg data
  · intro h10
    obtain h | rfl | rfl | rfl := hoff
    · exact absurd h h10
    · rfl
    · rfl
    · rfl

/-! ## Completion -/

section
variable {s : State} {op : FieldOperand} {d : Desc} {fmt : Nat} {F : Format}

/-- A field command whose window fits a ready view completes with its action's effect. -/
theorem exec_command_of_ready (hn : op.Names s d) (hr : BufferReady s) (hd : d.wf = true) (hw : WindowFits s d)
    (a : FieldAction) : exec (op.command a) s = .next (a.effect d (beginCommand (encode (op.command a)) s)) := by
  obtain ⟨hc, hb, hf, hp⟩ := bufferReady_iff.mp hr
  obtain ⟨hrun, -⟩ := (exec_command_iff hn a).mpr ⟨⟨hc, hd, hb, hf, inBounds_iff.mpr hw, hp⟩, rfl⟩
  exact hrun

theorem DescLegal.wf (h : DescLegal d) : d.wf = true := checkDesc_eq_ok_iff_wf (u := ()).mp (checkDesc_eq_ok.mpr h)

theorem exec_init_of_ready (hr : BufferReady s) (hF : s.record fmt = some F) (hl : 4 * F.n ≤ s.len) :
    exec (.init fmt) s = .next (afterInit fmt F s) := by
  obtain ⟨hrun, -⟩ := exec_init_iff.mpr ⟨F, hF, hr, hl, rfl⟩
  exact hrun

end

/-- Settles O23: the effect of a read is RESULT, of the field the table names. -/
theorem getCompletesWithTheField : Obligations.GetCompletesWithTheField := fun _ fmt fid _ hr hd hw =>
  exec_command_of_ready (op := .table fmt fid) hd hr (hd.wf hr.config) hw .get

/-- Settles O24: the effect of a read is RESULT, of the inline descriptor. -/
theorem getdCompletesWithTheField : Obligations.GetdCompletesWithTheField := fun _ q o w hr hd hw =>
  exec_command_of_ready (op := .inline ⟨q, o, w⟩) rfl hr hd.wf hw .get

/-- Settles O25: the effect of a write is the insertion of VALUE, in the field the table names. -/
theorem setCompletesWithTheInsert : Obligations.SetCompletesWithTheInsert := fun _ fmt fid _ hr hd hw =>
  exec_command_of_ready (op := .table fmt fid) hd hr (hd.wf hr.config) hw .set

/-- Settles O26: the effect of a write is the insertion of VALUE, at the inline descriptor. -/
theorem setdCompletesWithTheInsert : Obligations.SetdCompletesWithTheInsert := fun _ q o w hr hd hw =>
  exec_command_of_ready (op := .inline ⟨q, o, w⟩) rfl hr hd.wf hw .set

/-- Settles O37: INIT's header is the stamps folded over the zeroed bytes. -/
theorem initCompletesWithTheHeader : Obligations.InitCompletesWithTheHeader := by
  intro s fmt F hr hF hl
  rw [exec_init_of_ready hr hF hl, ← applyStamps_eq_foldl]
  rfl

/-- Settles O40: VALID is the verdict, which decides acceptance. -/
theorem isvalidCompletesWithTheVerdict : Obligations.IsvalidCompletesWithTheVerdict := fun _ _ _ hr hF =>
  ⟨exec_isvalid_of_accepts hr hF, exec_isvalid_of_not_accepts hr hF⟩

/-! ## The default records (10_state.md R45) -/

/-- The CVF record is well-formed for parameters that fit their fields. -/
theorem cvfRecord_wf {k : CvfConstants} (hs : k.subtype < 256) (hf : k.formatRfc < 256) (hm : k.fsubMax < 256) :
    (cvfRecord k).wf = true := by
  have hfields : ∀ d ∈ cvfFields, d.wf = true ∧ d.q + nq d.w ≤ 6 := by decide
  have hdisjoint : pairwiseDisjoint cvfFields = true := by decide
  rw [Format.wf_iff]
  refine ⟨?_, ?_, ?_, hfields, hdisjoint, ?_, ?_, ?_⟩
  · simp [cvfRecord]
  · simp [cvfRecord]
  · simp [cvfRecord, cvfFields]
  · simp [cvfRecord, cvfFields, Format.fits, hs, hf]
  · simp [cvfRecord, cvfFields]
  · simp [cvfRecord, cvfFields, Format.checkOk, Format.fits, hs, hf, hm]

/-- Settles O45: the fields are checked one by one, the parameters fit the 8 bits of their fields. -/
theorem defaultRecordsAreWellFormed : Obligations.DefaultRecordsAreWellFormed :=
  ⟨by decide, fun _ hs hf hm => cvfRecord_wf hs hf hm, fun _ _ => (by decide : Config.default.wf = true)⟩

end Sys2Proof.Machine
end

section
/-! PROOFS. The statement about the assembler (30_encoding.md R91). The line of a command is words of capitals and digits, parted by
blanks and commas; such a word is read back as it stands, and a decimal number as its value. -/

namespace Sys2Proof.Machine

/-! ## The words of a line -/

/-- A character that stands in a word of a line as it is: no blank, no comma, no small letter. -/
def isWordChar (c : Char) : Bool := c != ' ' && c != '\t' && c != ',' && c.toUpper == c

theorem isWordChar_iff {c : Char} : isWordChar c = true ↔ c ≠ ' ' ∧ c ≠ '\t' ∧ c ≠ ',' ∧ c.toUpper = c := by
  simp [isWordChar, and_assoc]

/-- A word of a line that is read as it stands. -/
abbrev IsWord (w : List Char) : Prop := w ≠ [] ∧ w.all isWordChar = true

section
variable {w : List Char}

/-- The characters of a word are kept, the last in front. -/
theorem tokens_wordChars (hw : w.all isWordChar = true) (acc rest : List Char) :
    tokens acc (w ++ rest) = tokens (w.reverse ++ acc) rest := by
  induction w generalizing acc with
  | nil => rfl
  | cons c w ih =>
    rw [List.all_cons, Bool.and_eq_true, isWordChar_iff] at hw
    obtain ⟨⟨hblank, htab, hcomma, hupper⟩, hw⟩ := hw
    rw [List.cons_append, tokens, if_neg (not_or.mpr ⟨hblank, htab⟩), if_neg hcomma, hupper, ih hw, List.reverse_cons,
      List.append_assoc, List.singleton_append]

theorem flushName_reverse (hw : IsWord w) (rest : List Token) : flushName (w.reverse ++ []) rest = .name w :: rest := by
  obtain ⟨hne, -⟩ := hw
  rw [List.append_nil, flushName, if_neg (by simpa using hne), List.reverse_reverse]

/-- A word at the end of the line. -/
theorem tokens_word (hw : IsWord w) : tokens [] w = [.name w] := by
  have ⟨_, hchars⟩ := hw
  have h := tokens_wordChars hchars [] []
  rw [List.append_nil] at h
  rw [h, tokens, flushName_reverse hw]

/-- A word and the blank after it. -/
theorem tokens_word_blank (hw : IsWord w) (rest : List Char) : tokens [] (w ++ ' ' :: rest) = .name w :: tokens [] rest := by
  have ⟨_, hchars⟩ := hw
  rw [tokens_wordChars hchars, tokens, if_pos (.inl rfl), flushName_reverse hw]

/-- A word and the comma and blank after it. -/
theorem tokens_word_comma (hw : IsWord w) (rest : List Char) :
    tokens [] (w ++ ',' :: ' ' :: rest) = .name w :: .comma :: tokens [] rest := by
  have ⟨_, hchars⟩ := hw
  have hblank : tokens [] (' ' :: rest) = tokens [] rest := by rw [tokens, if_pos (.inl rfl), flushName, if_pos rfl]
  rw [tokens_wordChars hchars, tokens, if_neg (by decide), if_pos rfl, flushName_reverse hw, hblank]

end

/-! ## Decimal numbers -/

/-- The codes of the decimal digits. -/
theorem toNat_range_of_isDigit {c : Char} (h : c.isDigit = true) : 48 ≤ c.toNat ∧ c.toNat ≤ 57 := by
  simpa [Char.isDigit, UInt32.le_iff_toNat_le] using h

theorem isWordChar_of_isDigit {c : Char} (h : c.isDigit = true) : isWordChar c = true := by
  have hrange := toNat_range_of_isDigit h
  refine isWordChar_iff.mpr ⟨?_, ?_, ?_, ?_⟩
  · rintro rfl
    exact absurd h (by decide)
  · rintro rfl
    exact absurd h (by decide)
  · rintro rfl
    exact absurd h (by decide)
  · have hsmall : ¬('a'.val ≤ c.val ∧ c.val ≤ 'z'.val) := by
      rintro ⟨hlow, -⟩
      have hlow : 97 ≤ c.toNat := UInt32.le_iff_toNat_le.mp hlow
      omega
    rw [Char.toUpper, dif_neg hsmall]

theorem digitValue_of_isDigit {c : Char} (h : c.isDigit = true) : digitValue c = some (c.toNat - '0'.toNat) :=
  if_pos (toNat_range_of_isDigit h)

/-- Reading decimal digits is evaluating them. -/
theorem digits_ten {cs : List Char} (h : ∀ c ∈ cs, c.isDigit = true) (acc : Nat) :
    digits 10 acc cs = some (Nat.ofDigitChars 10 cs acc) := by
  induction cs generalizing acc with
  | nil => rfl
  | cons c cs ih =>
    obtain ⟨hc, hcs⟩ := List.forall_mem_cons.mp h
    have hlt : c.toNat - '0'.toNat < 10 := by
      have hrange := toNat_range_of_isDigit hc
      have hzero : '0'.toNat = 48 := rfl
      omega
    simp only [digits, digitValue_of_isDigit hc, if_pos hlt]
    rw [ih hcs, Nat.ofDigitChars_cons, Nat.mul_comm]

theorem decimal_isDigit (n : Nat) : ∀ c ∈ decimal n, c.isDigit = true :=
  fun _ => Nat.isDigit_of_mem_toDigits (by decide) (by decide)

theorem isWord_decimal (n : Nat) : IsWord (decimal n) :=
  ⟨Nat.toDigits_ne_nil, List.all_eq_true.mpr fun c hc => isWordChar_of_isDigit (decimal_isDigit n c hc)⟩

/-- Without a letter no word is hexadecimal. -/
theorem number_of_digits {cs : List Char} (hne : cs ≠ []) (h : ∀ c ∈ cs, c.isDigit = true) : number cs = digits 10 0 cs := by
  unfold number
  split
  · exact absurd rfl hne
  · exact absurd (h 'X' (by simp)) (by decide)
  · exact absurd (h 'X' (by simp)) (by decide)
  · rfl

theorem number_decimal (n : Nat) : number (decimal n) = some n := by
  have hdigits := decimal_isDigit n
  have hne : decimal n ≠ [] := Nat.toDigits_ne_nil
  rw [number_of_digits hne hdigits, digits_ten hdigits, decimal, Nat.ofDigitChars_ten_toDigits]

theorem numberBelow_decimal {n k : Nat} (h : n < k) : numberBelow k (decimal n) = some n := by
  rw [numberBelow, number_decimal]
  exact if_pos h

/-! ## Operands -/

theorem positionOf_eq_none {name : List Char} {names : List (List Char)} (h : name ∉ names) : positionOf name names = none := by
  induction names with
  | nil => rfl
  | cons n ns ih =>
    obtain ⟨hn, hns⟩ := not_or.mp (mt List.mem_cons.mpr h)
    rw [positionOf, if_neg (Ne.symm hn), ih hns]
    rfl

/-- A decimal number is no name of a list whose every name has a character that is no digit. -/
theorem positionOf_decimal (n : Nat) {names : List (List Char)} (h : ∀ w ∈ names, w.all Char.isDigit = false) :
    positionOf (decimal n) names = none := by
  refine positionOf_eq_none fun hmem => ?_
  have hall : (decimal n).all Char.isDigit = true := List.all_eq_true.mpr (decimal_isDigit n)
  rw [h _ hmem] at hall
  cases hall

theorem formatOperand_decimal {n : Nat} (h : n < 16) : formatOperand (decimal n) = some n := by
  rw [formatOperand, positionOf_decimal n (by decide)]
  exact numberBelow_decimal h

/-- Every field name has a letter. -/
theorem fieldNames_letter (fmt : Nat) : ∀ w ∈ fieldNames fmt, w.all Char.isDigit = false := by
  unfold fieldNames
  split
  · decide
  · decide
  · nofun

theorem fieldOperand_decimal (fmt : Nat) {n : Nat} (h : n < 256) : fieldOperand fmt (decimal n) = some n := by
  rw [fieldOperand, positionOf_decimal n (fieldNames_letter fmt)]
  exact numberBelow_decimal h

theorem tableOperands_decimal {fmt fid : Nat} (hfmt : fmt < 16) (hfid : fid < 256) :
    tableOperands (decimal fmt) (decimal fid) = some (fmt, fid) := by
  rw [tableOperands, formatOperand_decimal hfmt]
  change (fieldOperand fmt (decimal fid)).bind _ = _
  rw [fieldOperand_decimal fmt hfid]
  rfl

theorem descOperands_decimal {q o w : Nat} (hq : q < 16) (ho : o < 32) (hw : w < 128) :
    descOperands (decimal q) (decimal o) (decimal w) = some ⟨q, o, w⟩ := by
  rw [descOperands, numberBelow_decimal hq, numberBelow_decimal ho, numberBelow_decimal hw]
  rfl

/-! ## The printed line -/

/-- The tokens of a printed command. -/
def printedTokens : Instr → List Token
  | .nop => [.name "NOP".toList]
  | .get fmt fid => [.name "GET".toList, .name (decimal fmt), .comma, .name (decimal fid)]
  | .set fmt fid => [.name "SET".toList, .name (decimal fmt), .comma, .name (decimal fid)]
  | .init fmt => [.name "INIT".toList, .name (decimal fmt)]
  | .isvalid fmt => [.name "ISVALID".toList, .name (decimal fmt)]
  | .getd q o w =>
    [.name "GETD".toList, .name (decimal q), .comma, .name (decimal o), .comma, .name (decimal w)]
  | .setd q o w =>
    [.name "SETD".toList, .name (decimal q), .comma, .name (decimal o), .comma, .name (decimal w)]

theorem tokens_two_words {v w : List Char} (hv : IsWord v) (hw : IsWord w) :
    tokens [] (v ++ ',' :: ' ' :: w) = [.name v, .comma, .name w] := by
  rw [tokens_word_comma hv, tokens_word hw]

theorem tokens_three_words {u v w : List Char} (hu : IsWord u) (hv : IsWord v) (hw : IsWord w) :
    tokens [] (u ++ ',' :: ' ' :: (v ++ ',' :: ' ' :: w)) = [.name u, .comma, .name v, .comma, .name w] := by
  rw [tokens_word_comma hu, tokens_two_words hv hw]

/-- The line of a command is its tokens, with blanks between. -/
theorem tokens_printCommand (i : Instr) : tokens [] (printCommand i) = printedTokens i := by
  cases i with
  | nop => exact tokens_word (by decide)
  | get fmt fid =>
    have hline (x y : List Char) : "GET ".toList ++ x ++ ", ".toList ++ y = "GET".toList ++ ' ' :: (x ++ ',' :: ' ' :: y) := by
      simp
    refine (congrArg (tokens []) (hline (decimal fmt) (decimal fid))).trans ?_
    rw [tokens_word_blank (by decide), tokens_two_words (isWord_decimal fmt) (isWord_decimal fid)]
    rfl
  | set fmt fid =>
    have hline (x y : List Char) : "SET ".toList ++ x ++ ", ".toList ++ y = "SET".toList ++ ' ' :: (x ++ ',' :: ' ' :: y) := by
      simp
    refine (congrArg (tokens []) (hline (decimal fmt) (decimal fid))).trans ?_
    rw [tokens_word_blank (by decide), tokens_two_words (isWord_decimal fmt) (isWord_decimal fid)]
    rfl
  | init fmt =>
    have hline (x : List Char) : "INIT ".toList ++ x = "INIT".toList ++ ' ' :: x := by simp
    refine (congrArg (tokens []) (hline (decimal fmt))).trans ?_
    rw [tokens_word_blank (by decide), tokens_word (isWord_decimal fmt)]
    rfl
  | isvalid fmt =>
    have hline (x : List Char) : "ISVALID ".toList ++ x = "ISVALID".toList ++ ' ' :: x := by simp
    refine (congrArg (tokens []) (hline (decimal fmt))).trans ?_
    rw [tokens_word_blank (by decide), tokens_word (isWord_decimal fmt)]
    rfl
  | getd q o w =>
    have hline (x y z : List Char) : "GETD ".toList ++ x ++ ", ".toList ++ y ++ ", ".toList ++ z =
        "GETD".toList ++ ' ' :: (x ++ ',' :: ' ' :: (y ++ ',' :: ' ' :: z)) := by simp
    refine (congrArg (tokens []) (hline (decimal q) (decimal o) (decimal w))).trans ?_
    rw [tokens_word_blank (by decide),
      tokens_three_words (isWord_decimal q) (isWord_decimal o) (isWord_decimal w)]
    rfl
  | setd q o w =>
    have hline (x y z : List Char) : "SETD ".toList ++ x ++ ", ".toList ++ y ++ ", ".toList ++ z =
        "SETD".toList ++ ' ' :: (x ++ ',' :: ' ' :: (y ++ ',' :: ' ' :: z)) := by simp
    refine (congrArg (tokens []) (hline (decimal q) (decimal o) (decimal w))).trans ?_
    rw [tokens_word_blank (by decide),
      tokens_three_words (isWord_decimal q) (isWord_decimal o) (isWord_decimal w)]
    rfl

/-- The rows of 30_encoding.md R91 read a well-formed command's tokens back. -/
theorem parseCommand_printedTokens {i : Instr} (hi : i.wf = true) : parseCommand (printedTokens i) = some i := by
  cases i with
  | nop => decide
  | get fmt fid =>
    simp only [Instr.wf, Bool.and_eq_true, decide_eq_true_eq] at hi
    obtain ⟨hfmt, hfid⟩ := hi
    simp [printedTokens, parseCommand, tableOperands_decimal hfmt hfid]
  | set fmt fid =>
    simp only [Instr.wf, Bool.and_eq_true, decide_eq_true_eq] at hi
    obtain ⟨hfmt, hfid⟩ := hi
    simp [printedTokens, parseCommand, tableOperands_decimal hfmt hfid]
  | init fmt => simp [printedTokens, parseCommand, formatOperand_decimal (of_decide_eq_true hi)]
  | isvalid fmt => simp [printedTokens, parseCommand, formatOperand_decimal (of_decide_eq_true hi)]
  | getd q o w =>
    simp only [Instr.wf, Bool.and_eq_true, decide_eq_true_eq] at hi
    obtain ⟨⟨hq, ho⟩, hw⟩ := hi
    simp [printedTokens, parseCommand, descOperands_decimal hq ho hw]
  | setd q o w =>
    simp only [Instr.wf, Bool.and_eq_true, decide_eq_true_eq] at hi
    obtain ⟨⟨hq, ho⟩, hw⟩ := hi
    simp [printedTokens, parseCommand, descOperands_decimal hq ho hw]

/-- No printed line is a `.word` line. -/
theorem assembleWord_printCommand (i : Instr) : assembleWord (printCommand i) = (parseCommand (printedTokens i)).map encode := by
  unfold assembleWord
  rw [tokens_printCommand]
  cases i with
  | init fmt => exact if_neg (by decide)
  | isvalid fmt => exact if_neg (by decide)
  | _ => rfl

/-- Settles O13: the printed line is the command's tokens, and each row of R91 reads its decimal operands back. -/
theorem assemblerReadsWhatItPrints : Obligations.AssemblerReadsWhatItPrints := by
  intro i hi
  rw [assembleWord_printCommand, parseCommand_printedTokens hi]
  rfl

end Sys2Proof.Machine
end
